-- ==== Sys2Proof/Word.lean ====
section
/-! DEFINITION. The values the core works on: nibbles, the words of the two ports, and the
four-nibble sequence that the spec calls a State, a Key or a round key (R13, R14). -/

namespace Sys2Proof

/-- A 4-bit unsigned value, range 0 to 15 (R14, R17). -/
abbrev Nibble := BitVec 4

/-- A 16-bit port word: a packed State, Key or round key (R45, R46). -/
abbrev Word := BitVec 16

/-- The 38-bit request word REQ (R60). -/
abbrev ReqWord := BitVec 38

/-- The 48-bit field DATA of a response (R61). -/
abbrev Data := BitVec 48

/-- The 49-bit response word RESP (R61). -/
abbrev RespWord := BitVec 49

/-- A sequence of exactly four nibbles, positions 0 to 3 (R14). The spec's name is `State`; here it
is `Block`, because `State` is the machine's state. Position p stands at row p mod 2, column p div 2
of a 2 x 2 matrix (R44). -/
@[ext]
structure Block where
  s0 : Nibble
  s1 : Nibble
  s2 : Nibble
  s3 : Nibble
  deriving DecidableEq, Repr, Inhabited

/-- The four-nibble master secret (R17). -/
abbrev Key := Block

/-- The RoundKeySet: the three round keys derived from a Key (R17, R28). -/
@[ext]
structure RoundKeys where
  rk0 : Block
  rk1 : Block
  rk2 : Block
  deriving DecidableEq, Repr, Inhabited

end Sys2Proof
end

