-- ==== Sys2Proof/Config.lean ====
section
/-! DEFINITION. What an implementation fixes (Config.Params, Config.latency) and the free values of the
model: constants with no body, so that no proof can see what they are. -/

namespace Sys2Proof

/-- The two parameters of the cipher that the source leaves to the implementation (R10, R11). Their
defaults are `Machine.defaultParams`. -/
structure Config.Params where
  /-- The forward substitution table SBOX (R10). -/
  sbox : Vector Nibble 16
  /-- The reduction polynomial GF_POLY, its bit i the coefficient of x^i (R11, R25). -/
  gfPoly : BitVec 5
  deriving DecidableEq, Repr

/-- LATENCY(op): an OPEN parameter, a number of cycles that depends on OP alone (R12, R178, R179). No
step reads it: the model has no time (notes/assumptions/15.md). -/
opaque Config.latency : BitVec 4 → Nat

/-- FREE VALUE: DATA of the response to a reserved OP (R152). DESIGN CHOICE: it may differ with OP and with
the count of draws, and with nothing else of the request or the state (notes/assumptions/22.md). -/
opaque Config.freeData : BitVec 4 → Nat → Data

/-- FREE VALUE: REQ after its transaction has ended (R27, R34; notes/assumptions/5.md, as are the
seven below). -/
opaque Config.freeReq : Nat → ReqWord

/-- FREE VALUE: W after its transaction has ended. -/
opaque Config.freeW : Nat → Block

/-- FREE VALUE: WX[0..11] after their transaction has ended. -/
opaque Config.freeWx : Nat → Vector Nibble 12

/-- FREE VALUE: TEMP after its transaction has ended. -/
opaque Config.freeTemp : Nat → Nibble

/-- FREE VALUE: RK0 after its transaction has ended. -/
opaque Config.freeRk0 : Nat → Block

/-- FREE VALUE: RK1 after its transaction has ended. -/
opaque Config.freeRk1 : Nat → Block

/-- FREE VALUE: RK2 after its transaction has ended. -/
opaque Config.freeRk2 : Nat → Block

/-- FREE VALUE: STEP after its transaction has ended, within the range 0 to 8 that R26 gives it. -/
opaque Config.freeStep : Nat → Fin 9

end Sys2Proof
end

