-- ==== Sys2Proof/Syntax.lean ====
section
/-! DEFINITION. The operations of the core: one constructor for each row of spec/opcode_table.json
(R62). -/

namespace Sys2Proof

/-- A request with an assigned OP. Each constructor carries all three operand fields of the request
format (R60), the fields that the operation does not read among them: R64 is then a fact about the
meanings and not about the decoder (notes/assumptions/13.md). -/
inductive Instr where
  /-- OP 0x0: `a` is the plaintext, `b` the key (R131). -/
  | encrypt (mul : BitVec 2) (a b : Word)
  /-- OP 0x1: `a` is the ciphertext, `b` the key (R135). -/
  | decrypt (mul : BitVec 2) (a b : Word)
  /-- OP 0x2: `b` is the key (R121). -/
  | expandKey (mul : BitVec 2) (a b : Word)
  /-- OP 0x3: `a` is the State (R92). -/
  | subNibbles (mul : BitVec 2) (a b : Word)
  /-- OP 0x4: `a` is the State (R93). -/
  | invSubNibbles (mul : BitVec 2) (a b : Word)
  /-- OP 0x5: `a` is the State (R101). -/
  | shiftRows (mul : BitVec 2) (a b : Word)
  /-- OP 0x6: `a` is the State (R106). -/
  | mixColumns (mul : BitVec 2) (a b : Word)
  /-- OP 0x7: `a` is the State, `b` the round key (R116). -/
  | addRoundKey (mul : BitVec 2) (a b : Word)
  /-- OP 0x8: `mul` is the multiplier m, the low nibble of `a` the operand v (R82). -/
  | multiply (mul : BitVec 2) (a b : Word)
  deriving DecidableEq, Repr

end Sys2Proof
end

