-- ==== Sys2Proof/WellFormed.lean ====
section
/-! DEFINITION. Which request words are legal and which instructions an assembler writes. The spec has
ONE legality check, on OP (R66); every value of MUL, A and B is legal with every assigned OP (R63), so
every term of `Instr` is legal and no check on `Instr` restricts what runs. -/

namespace Sys2Proof

/-- A legal request: its OP is assigned, 0x0 to 0x8 (R66). A request that is not legal is still
served: it raises IllegalOperation (R152). -/
def ReqWord.wellFormed (w : ReqWord) : Bool :=
  (w.extractLsb' 34 4).toNat ≤ 8

/-- What an assembler writes: every field that the operation does not read is 0 (R69). Hardware
serves the other requests just the same (R64). -/
def Instr.canonical : Instr → Bool
  | .encrypt mul _ _ => mul == 0
  | .decrypt mul _ _ => mul == 0
  | .expandKey mul a _ => mul == 0 && a == 0
  | .subNibbles mul _ b => mul == 0 && b == 0
  | .invSubNibbles mul _ b => mul == 0 && b == 0
  | .shiftRows mul _ b => mul == 0 && b == 0
  | .mixColumns mul _ b => mul == 0 && b == 0
  | .addRoundKey mul _ _ => mul == 0
  | .multiply _ a b => a.extractLsb' 4 12 == 0 && b == 0

end Sys2Proof
end

