-- ==== Sys2Proof/Decode.lean ====
section
/-! DEFINITION. From request words to instructions and back (30_encoding.md): the fields of REQ, the
decoder, the encoder and the numbered table word that the host asks about. -/

namespace Sys2Proof

/-- OP = REQ[37:34] (R60). -/
def ReqWord.op (w : ReqWord) : BitVec 4 := w.extractLsb' 34 4

/-- MUL = REQ[33:32] (R60). -/
def ReqWord.mul (w : ReqWord) : BitVec 2 := w.extractLsb' 32 2

/-- A = REQ[31:16] (R60). -/
def ReqWord.a (w : ReqWord) : Word := w.extractLsb' 16 16

/-- B = REQ[15:0] (R60). -/
def ReqWord.b (w : ReqWord) : Word := w.extractLsb' 0 16

/-- A request of the one format: OP, MUL, A, B from the most significant bit down (R60). -/
def ReqWord.ofFields (op : BitVec 4) (mul : BitVec 2) (a b : Word) : ReqWord :=
  op ++ mul ++ a ++ b

/-- Why a request word is no instruction. -/
inductive DecodeError where
  /-- OP is one of the reserved values 0x9 to 0xF (R66). -/
  | reservedOp (op : BitVec 4)
  deriving DecidableEq, Repr

/-- The opcode map with all fields kept (R62, R68). Total on 38-bit words: every word has the one
length there is (R67), and the only rejection is a reserved OP (R66). -/
def decode (w : ReqWord) : Except DecodeError Instr :=
  match w.op.toNat with
  | 0 => .ok (.encrypt w.mul w.a w.b)
  | 1 => .ok (.decrypt w.mul w.a w.b)
  | 2 => .ok (.expandKey w.mul w.a w.b)
  | 3 => .ok (.subNibbles w.mul w.a w.b)
  | 4 => .ok (.invSubNibbles w.mul w.a w.b)
  | 5 => .ok (.shiftRows w.mul w.a w.b)
  | 6 => .ok (.mixColumns w.mul w.a w.b)
  | 7 => .ok (.addRoundKey w.mul w.a w.b)
  | 8 => .ok (.multiply w.mul w.a w.b)
  | _ => .error (.reservedOp w.op)

/-- The OP value of each operation (R62). -/
def Instr.opcode : Instr → BitVec 4
  | .encrypt .. => 0x0
  | .decrypt .. => 0x1
  | .expandKey .. => 0x2
  | .subNibbles .. => 0x3
  | .invSubNibbles .. => 0x4
  | .shiftRows .. => 0x5
  | .mixColumns .. => 0x6
  | .addRoundKey .. => 0x7
  | .multiply .. => 0x8

/-- The request word of an instruction (R60, R62). -/
def encode : Instr → ReqWord
  | .encrypt mul a b => ReqWord.ofFields 0x0 mul a b
  | .decrypt mul a b => ReqWord.ofFields 0x1 mul a b
  | .expandKey mul a b => ReqWord.ofFields 0x2 mul a b
  | .subNibbles mul a b => ReqWord.ofFields 0x3 mul a b
  | .invSubNibbles mul a b => ReqWord.ofFields 0x4 mul a b
  | .shiftRows mul a b => ReqWord.ofFields 0x5 mul a b
  | .mixColumns mul a b => ReqWord.ofFields 0x6 mul a b
  | .addRoundKey mul a b => ReqWord.ofFields 0x7 mul a b
  | .multiply mul a b => ReqWord.ofFields 0x8 mul a b

/-- The cycles from a request to its response: a function of OP alone (R178, R179). -/
def ReqWord.latency (w : ReqWord) : Nat := Config.latency w.op

/-- The instruction that the decoder reads from a request whose bits are `w`, numbered as
spec/opcode_table.json numbers them. A request is ONE word of 38 bits, so bit i of `w` is bit i of REQ.
A number with a bit above bit 37 is no request (notes/assumptions/14.md). `nbits` plays no part: all
requests have the one length (R67). -/
def decodeTableWord (_nbits w : Nat) : Option Instr :=
  if w < 2 ^ 38 then
    match decode (BitVec.ofNat 38 w) with
    | .ok i => some i
    | .error _ => none
  else none

end Sys2Proof
end

