-- ==== Sys2Proof/Machine/Tables.lean ====
section
/-! DEFINITION. The three constant tables (ROMs) of 10_state.md section 2: how they are read, how they
follow from the parameters SBOX and GF_POLY, and when a set of tables is one the spec allows. -/

namespace Sys2Proof.Machine

/-- Every nibble once. -/
def allNibbles : List Nibble :=
  [0x0, 0x1, 0x2, 0x3, 0x4, 0x5, 0x6, 0x7, 0x8, 0x9, 0xA, 0xB, 0xC, 0xD, 0xE, 0xF]

/-- `RomRead(table, n)`: direct indexing by the nibble's value (R15, R41). -/
def readTable (t : Vector Nibble 16) (n : Nibble) : Nibble :=
  t.get n.toFin

/-- A 16-entry table from a function of the index. -/
def tabulate (f : Nibble → Nibble) : Vector Nibble 16 :=
  #v[f 0x0, f 0x1, f 0x2, f 0x3, f 0x4, f 0x5, f 0x6, f 0x7,
     f 0x8, f 0x9, f 0xA, f 0xB, f 0xC, f 0xD, f 0xE, f 0xF]

/-- `fieldMul(m, v)`: the product in GF(2)[x] / (GF_POLY), written as R25 writes it: a carry-less
product of 7 bits, then the reduction from bit 6 down to bit 4. Polynomial basis (R80). -/
def fieldMul (poly : BitVec 5) (m v : Nibble) : Nibble :=
  let product : BitVec 7 := [0, 1, 2, 3].foldl
    (fun p i => if m.getLsbD i then p ^^^ (v.setWidth 7 <<< i) else p) 0
  let reduced : BitVec 7 := [6, 5, 4].foldl
    (fun p i => if p.getLsbD i then p ^^^ (poly.setWidth 7 <<< (i - 4)) else p) product
  reduced.extractLsb' 0 4

/-- `INV_SBOX[v]`: the n with `SBOX[n] = v` (R23). (There is one for every bijective SBOX; the 0 for a
table without one is read by no machine whose tables are allowed, `Roms.Wf`.) -/
def inverseOf (sbox : Vector Nibble 16) (v : Nibble) : Nibble :=
  (allNibbles.find? (fun n => readTable sbox n == v)).getD 0

/-- The three ROMs, the only storage that persists between transactions (R21, R40). -/
structure Roms where
  /-- SBOX: 16 entries of 4 bits (R22). -/
  sbox : Vector Nibble 16
  /-- INV_SBOX: 16 entries of 4 bits (R23). -/
  invSbox : Vector Nibble 16
  /-- GF_MUL: 4 rows, one for each multiplier, of 16 entries of 4 bits (R24). -/
  gfMul : Vector (Vector Nibble 16) 4
  deriving DecidableEq, Repr

/-- `RomRead(GF_MUL, m ‖ v)` = `GF_MUL[m][v]` (R24, R41). -/
def readGfMul (r : Roms) (m : BitVec 2) (v : Nibble) : Nibble :=
  readTable (r.gfMul.get m.toFin) v

/-- The contents of GF_MUL for a polynomial: every entry is `fieldMul(m, v)` (R24). -/
def gfMulTable (poly : BitVec 5) : Vector (Vector Nibble 16) 4 :=
  #v[tabulate (fieldMul poly 0), tabulate (fieldMul poly 1),
     tabulate (fieldMul poly 2), tabulate (fieldMul poly 3)]

/-- The three ROMs as the two parameters fix them (R22, R23, R24). -/
def Roms.ofParams (p : Config.Params) : Roms where
  sbox := p.sbox
  invSbox := tabulate (inverseOf p.sbox)
  gfMul := gfMulTable p.gfPoly

/-- The default S-box (R22). PRESUMED: 13 of its 16 entries are the spec's decision D1, the S-box of
the published Mini-AES; only entries 0, 1 and F are fixed by the source (notes/assumptions/1.md). -/
def defaultSbox : Vector Nibble 16 :=
  #v[0xE, 0x4, 0xD, 0x1, 0x2, 0xF, 0xB, 0x8, 0x3, 0xA, 0x6, 0xC, 0x5, 0x9, 0x0, 0x7]

/-- The default polynomial x^4 + x + 1 (R11). PRESUMED: decision D2 (notes/assumptions/2.md). -/
def defaultGfPoly : BitVec 5 := 0x13

/-- The default parameters (R10, R11). -/
def defaultParams : Config.Params := ⟨defaultSbox, defaultGfPoly⟩

/-- A polynomial that the spec allows: one of the three irreducible ones of degree 4 (R11, D2). -/
abbrev PolyAllowed (poly : BitVec 5) : Prop :=
  poly = 0x13 ∨ poly = 0x19 ∨ poly = 0x1F

/-- An S-box that the spec allows: a bijection over the nibbles with the three entries that the source
fixes (R10, R22, D1). -/
abbrev SboxAllowed (sbox : Vector Nibble 16) : Prop :=
  (∀ m n : Nibble, readTable sbox m = readTable sbox n → m = n) ∧
    readTable sbox 0x0 = 0xE ∧ readTable sbox 0x1 = 0x4 ∧ readTable sbox 0xF = 0x7

/-- Parameters that the spec allows (R10, R11). -/
abbrev ParamsAllowed (p : Config.Params) : Prop :=
  SboxAllowed p.sbox ∧ PolyAllowed p.gfPoly

/-- Tables that the spec allows: those of some allowed parameters (R22, R23, R24). -/
def Roms.Wf (r : Roms) : Prop :=
  ∃ p : Config.Params, ParamsAllowed p ∧ r = Roms.ofParams p

end Sys2Proof.Machine
end

