-- ==== Sys2Proof/Machine/State.lean ====
section
/-! DEFINITION. The machine's state as plain data, and the state right after reset (10_state.md). -/

namespace Sys2Proof.Machine

/-- The registers of one transaction (R26). They are created at its start and lost at its end (R27);
between transactions they hold values that nothing reads (R34). -/
structure TxnRegs where
  /-- REQ: the request being served. -/
  req : ReqWord
  /-- W: the working State of the pipeline. -/
  w : Block
  /-- WX[0..11]: the expanded key words. -/
  wx : Vector Nibble 12
  /-- TEMP: the key schedule's temporary. -/
  temp : Nibble
  /-- RK0. -/
  rk0 : Block
  /-- RK1. -/
  rk1 : Block
  /-- RK2. -/
  rk2 : Block
  /-- STEP: the pipeline step index, values 0 to 8 (R31). -/
  step : BitVec 4
  deriving DecidableEq, Repr

/-- One response (R61). -/
structure Response where
  /-- ERR: false (0) the operation completed, true (1) IllegalOperation (R153). -/
  err : Bool
  /-- DATA: the result; unspecified when ERR = 1. -/
  data : Data
  deriving DecidableEq, Repr

/-- The trace labels of the pipeline steps (R132, R136). -/
inductive StepLabel where
  | e1 | e2 | e3 | e4 | e5 | e6 | e7 | e8
  | d1 | d2 | d3 | d4 | d5 | d6 | d7 | d8
  deriving DecidableEq, Repr

/-- One entry of a trace (R140): the three round keys, or W after a labelled step. -/
inductive TraceEntry where
  | roundKeys (rks : RoundKeys)
  | after (label : StepLabel) (w : Block)
  deriving DecidableEq, Repr

/-- The spec's one error. -/
inductive Fault where
  /-- IllegalOperation (R152): what `Response.result` (Safety.lean) reads from a response with ERR = 1,
  in place of its DATA. No step ENDS in it: a reserved OP gives a next state whose response has ERR = 1,
  because the next request is served normally (notes/assumptions/7.md). Safe: no DATA is shown. -/
  | illegalOperation
  deriving DecidableEq, Repr

/-- Why the model gives an instruction no meaning. -/
inductive Refusal where
  /-- An arm of `exec` that has no meaning yet would raise it. No arm does: every operation of the table
  is modelled. Safe: the machine would stop. -/
  | notModelled (mnemonic : String)
  deriving DecidableEq, Repr

/-- The whole state of one core. -/
structure State where
  /-- The three constant tables, the only storage that persists (R21). -/
  roms : Roms
  /-- The registers of the transaction being served (R26). -/
  regs : TxnRegs
  /-- The request input: the request presented and not yet served; none when the core is idle (R33). -/
  request : Option ReqWord
  /-- The response output: the response being given; none when no response is pending (R33, R34). -/
  response : Option Response
  /-- The trace of the last transaction: an observation of the model, not a port (R140, R163). -/
  trace : List TraceEntry
  /-- THE MODEL'S OWN: how many times free values have been drawn (notes/assumptions/17.md). -/
  draws : Nat
  deriving DecidableEq, Repr

/-- The transaction registers right after reset. DESIGN CHOICE: the spec leaves them unspecified (R34)
and the model names zero for each (notes/assumptions/4.md). -/
def TxnRegs.reset : TxnRegs where
  req := 0
  w := ⟨0, 0, 0, 0⟩
  wx := #v[0, 0, 0, 0, 0, 0, 0, 0, 0, 0, 0, 0]
  temp := 0
  rk0 := ⟨0, 0, 0, 0⟩
  rk1 := ⟨0, 0, 0, 0⟩
  rk2 := ⟨0, 0, 0, 0⟩
  step := 0

/-- The idle core whose tables are those of the parameters `p`: no transaction in flight and no
response pending (R34, R172). -/
def State.resetWith (p : Config.Params) : State where
  roms := Roms.ofParams p
  regs := TxnRegs.reset
  request := none
  response := none
  trace := []
  draws := 0

/-- The machine right after reset, with the default tables (R34, R172). -/
def State.reset : State := State.resetWith defaultParams

end Sys2Proof.Machine
end

