-- ==== Sys2Proof/Machine/Flags.lean ====
section
/-! DEFINITION. The core has no flags, no condition codes and no status register (R29, R30): no
operation computes one. The only status is the ERR bit of each response, computed here from the cause
(R153). -/

namespace Sys2Proof.Machine

/-- The causes that a response can report (R153). -/
inductive Cause where
  /-- The operation completed: OP 0x0 to 0x8. -/
  | completed
  /-- IllegalOperation: OP 0x9 to 0xF. -/
  | illegalOperation
  deriving DecidableEq, Repr

/-- The ERR bit of a response, its only cause field (R153). -/
def errOf : Cause → Bool
  | .completed => false
  | .illegalOperation => true

/-- The cause that an OP value leads to: assigned or reserved (R62, R66). -/
def causeOfOp (op : BitVec 4) : Cause :=
  if op.toNat ≤ 8 then .completed else .illegalOperation

end Sys2Proof.Machine
end

