-- ==== Sys2Proof/Machine/Operands.lean ====
section
/-! DEFINITION. How operands are taken from the request fields and results placed in the response
(20_memory.md section 2; R61, R63, R65). -/

namespace Sys2Proof.Machine

/-- `unpack(w)`: position 0 is the most significant nibble (R45). -/
def unpack (w : Word) : Block :=
  ⟨w.extractLsb' 12 4, w.extractLsb' 8 4, w.extractLsb' 4 4, w.extractLsb' 0 4⟩

/-- `pack(s) = s[0] ‖ s[1] ‖ s[2] ‖ s[3]` (R45). -/
def pack (s : Block) : Word :=
  s.s0 ++ s.s1 ++ s.s2 ++ s.s3

/-- The nibble at position p of a State, `s[p]` (R14). -/
def nibbleAt (s : Block) (p : Fin 4) : Nibble :=
  match p with
  | 0 => s.s0
  | 1 => s.s1
  | 2 => s.s2
  | 3 => s.s3

/-- The entry of the 2 x 2 matrix of a State: column-major, so position 2 * column + row (R44). -/
def matrixEntry (s : Block) (row column : Fin 2) : Nibble :=
  nibbleAt s ⟨2 * column.val + row.val, by omega⟩

/-- The operand nibble of MULTIPLY, A[3:0] (R63, R82). -/
def operandNibble (a : Word) : Nibble :=
  a.extractLsb' 0 4

/-- A State result: `zext_48(pack(result))` (R65). -/
def blockData (s : Block) : Data :=
  (pack s).setWidth 48

/-- A nibble result: `zext_48(product)` (R65). -/
def nibbleData (n : Nibble) : Data :=
  n.setWidth 48

/-- The result of EXPANDKEY: RK0 in DATA[47:32], RK1 in DATA[31:16], RK2 in DATA[15:0] (R65). -/
def roundKeysData (k : RoundKeys) : Data :=
  pack k.rk0 ++ pack k.rk1 ++ pack k.rk2

/-- The 49-bit response word: ERR in bit 48, DATA below it (R61). -/
def Response.word (r : Response) : RespWord :=
  BitVec.ofBool r.err ++ r.data

end Sys2Proof.Machine
end

