-- ==== Sys2Proof/Machine/Ops.lean ====
section
/-! DEFINITION. The named operations that every transaction shares: the two ports, the start and the end
of a transaction, raising IllegalOperation, and reset. The spec has no return from an exception: no
handler runs (R157). -/

namespace Sys2Proof.Machine

/-- What the transaction registers hold once their transaction has ended: free values (R27, R34;
notes/assumptions/5.md). DESIGN CHOICE: they depend on the count of draws alone, so two transactions that
end at one count leave the same values (notes/assumptions/17.md). -/
def freeRegs (n : Nat) : TxnRegs where
  req := Config.freeReq n
  w := Config.freeW n
  wx := Config.freeWx n
  temp := Config.freeTemp n
  rk0 := Config.freeRk0 n
  rk1 := Config.freeRk1 n
  rk2 := Config.freeRk2 n
  step := BitVec.ofNat 4 (Config.freeStep n).val

/-- The request that the core serves next, if the host has presented one (R33). -/
def fetch (s : State) : Option ReqWord :=
  s.request

/-- The host drives the request port with `w` (R33). -/
def present (w : ReqWord) (s : State) : State :=
  { s with request := some w }

/-- The core is ready: no transaction is in flight (R172, R175). -/
def ready (s : State) : Bool :=
  s.request.isNone

/-- The host sends `w`; it must not while the core is not ready (R175), and then there is no send. -/
def send (w : ReqWord) (s : State) : Option State :=
  if ready s then some (present w s) else none

/-- The host reads the response that is pending, if there is one; it is then no longer pending
(notes/assumptions/8.md). -/
def takeResponse (s : State) : Option (Response × State) :=
  match s.response with
  | none => none
  | some r => some (r, { s with response := none })

/-- A transaction starts: the core reads the request once, into REQ (R175); STEP is 0 before the first
primitive (R31); no response is pending for it and its trace is empty. -/
def accept (w : ReqWord) (s : State) : State :=
  { s with
    regs := { s.regs with req := w, step := 0 }
    request := none
    response := none
    trace := [] }

/-- A transaction ends: its registers are discarded (R27). -/
def discard (s : State) : State :=
  { s with regs := freeRegs s.draws, draws := s.draws + 1 }

/-- `resp <- (0, data)`: the operation completed (R15, R68), and the transaction ends. -/
def complete (data : Data) (s : State) : State :=
  discard { s with response := some ⟨errOf .completed, data⟩ }

/-- `raise IllegalOperation(op)`: TAKING THE CORE'S ONE EXCEPTION (R152). The whole effect is the
response: ERR = 1 and DATA unspecified, a free value. Nothing is saved, no mode changes and no control is
transferred (R156); no register records OP. The transaction ends and the next request is served normally.
DESIGN CHOICE (notes/assumptions/22.md): DATA is drawn by OP and by the count of draws alone. R64 fixes that
MUL, A and B do not change it; that the tables and the registers do not is the model's, and two states with
the same count give one OP the same DATA. Two reserved OPs are given no relation between their DATA. -/
def raiseIllegalOperation (op : BitVec 4) (s : State) : State :=
  discard { s with response := some ⟨errOf .illegalOperation, Config.freeData op s.draws⟩ }

/-- The host asserts reset, at any time (R170 to R172): the transaction in flight is abandoned with no
response, its registers are lost, no response is pending, and the tables keep their contents. -/
def assertReset (s : State) : State :=
  discard { s with request := none, response := none, trace := [] }

end Sys2Proof.Machine
end

