-- ==== Sys2Proof/Machine/FieldArithmetic.lean ====
section
/-! DEFINITION. Field arithmetic: gfMul and MULTIPLY (40_field_arithmetic.md). -/

namespace Sys2Proof.Machine

/-- `gfMul(m, v)`: a read of the table GF_MUL (R81). -/
def gfMul (r : Roms) (m : BitVec 2) (v : Nibble) : Nibble :=
  readGfMul r m v

/-- MULTIPLY: the product of the nibble A[3:0] by the multiplier MUL; A[15:4] and B are ignored (R82). -/
def execMultiply (mul : BitVec 2) (a _b : Word) (s : State) : Host.Outcome State Fault Refusal :=
  .next (complete (nibbleData (gfMul s.roms mul (operandNibble a))) s)

end Sys2Proof.Machine
end

