-- ==== Sys2Proof/Machine/ColumnMix.lean ====
section
/-! DEFINITION. Column mix: MIXCOLUMNS (43_column_mix.md). -/

namespace Sys2Proof.Machine

/-- `mixCol(c0, c1)`: one column times the matrix [[3,2],[2,3]] (R105). -/
def mixCol (r : Roms) (c0 c1 : Nibble) : Nibble × Nibble :=
  (gfMul r 3 c0 ^^^ gfMul r 2 c1, gfMul r 2 c0 ^^^ gfMul r 3 c1)

/-- `mixColumns(s)`: `mixCol` on the columns {0,1} and {2,3} (R105). It is also InvMixColumns (R107). -/
def mixColumns (r : Roms) (s : Block) : Block :=
  let col0 := mixCol r s.s0 s.s1
  let col1 := mixCol r s.s2 s.s3
  ⟨col0.1, col0.2, col1.1, col1.2⟩

/-- MIXCOLUMNS: each column of A times the matrix; MUL and B are ignored (R106). -/
def execMixColumns (_mul : BitVec 2) (a _b : Word) (s : State) :
    Host.Outcome State Fault Refusal :=
  .next (complete (blockData (mixColumns s.roms (unpack a))) s)

end Sys2Proof.Machine
end

