-- ==== Sys2Proof/Machine/KeyMixing.lean ====
section
/-! DEFINITION. Key mixing: ADDROUNDKEY (44_key_mixing.md). -/

namespace Sys2Proof.Machine

/-- `addRoundKey(s, k)`: position-wise exclusive-or (R115). -/
def addRoundKey (s k : Block) : Block :=
  ⟨s.s0 ^^^ k.s0, s.s1 ^^^ k.s1, s.s2 ^^^ k.s2, s.s3 ^^^ k.s3⟩

/-- ADDROUNDKEY: the round key B into the State A; MUL is ignored (R116). -/
def execAddRoundKey (_mul : BitVec 2) (a b : Word) (s : State) :
    Host.Outcome State Fault Refusal :=
  .next (complete (blockData (addRoundKey (unpack a) (unpack b))) s)

end Sys2Proof.Machine
end

