-- ==== Sys2Proof/Machine/KeySchedule.lean ====
section
/-! DEFINITION. The key-schedule expander: expandKey over the registers WX and TEMP, its pure form, and
EXPANDKEY (45_key_schedule.md). -/

namespace Sys2Proof.Machine

/-- RCON = [1, 2] (R9, R120). -/
def rcon (i : Fin 2) : Nibble :=
  if i = 0 then 0x1 else 0x2

/-- `WX[k]`. -/
def readWx (k : Fin 12) (g : TxnRegs) : Nibble :=
  g.wx.get k

/-- One pass of the loop of R120: TEMP and the next four words, each from words computed before it, in
the order written. -/
def keyRound (r : Roms) (i : Fin 2) (g : TxnRegs) : TxnRegs :=
  let temp := readTable r.sbox (readWx ⟨4 * i.val + 3, by omega⟩ g) ^^^ rcon i
  let w4 := readWx ⟨4 * i.val, by omega⟩ g ^^^ temp
  let w5 := readWx ⟨4 * i.val + 1, by omega⟩ g ^^^ w4
  let w6 := readWx ⟨4 * i.val + 2, by omega⟩ g ^^^ w5
  let w7 := readWx ⟨4 * i.val + 3, by omega⟩ g ^^^ w6
  { g with
    temp := temp
    wx := (((g.wx.set (4 * i.val + 4) w4 (by omega)).set (4 * i.val + 5) w5 (by omega)).set
      (4 * i.val + 6) w6 (by omega)).set (4 * i.val + 7) w7 (by omega) }

/-- The first line of R120: the key into WX[0..3]. -/
def loadKey (key : Key) (g : TxnRegs) : TxnRegs :=
  { g with wx := (((g.wx.set 0 key.s0).set 1 key.s1).set 2 key.s2).set 3 key.s3 }

/-- Round key j from the words: `[WX[4j..4j+3]]` (R46, R120). -/
def roundKeyOfWx (j : Fin 3) (g : TxnRegs) : Block :=
  ⟨readWx ⟨4 * j.val, by omega⟩ g, readWx ⟨4 * j.val + 1, by omega⟩ g,
    readWx ⟨4 * j.val + 2, by omega⟩ g, readWx ⟨4 * j.val + 3, by omega⟩ g⟩

/-- The last line of R120: the words into the round-key file RK0, RK1, RK2 (R28). -/
def storeRoundKeys (g : TxnRegs) : TxnRegs :=
  { g with rk0 := roundKeyOfWx 0 g, rk1 := roundKeyOfWx 1 g, rk2 := roundKeyOfWx 2 g }

/-- `expandKey(key)` as R120 writes it, over WX, TEMP and the round-key file. -/
def expandKeyRegs (r : Roms) (key : Key) (g : TxnRegs) : TxnRegs :=
  storeRoundKeys (keyRound r 1 (keyRound r 0 (loadKey key g)))

/-- The round-key file as a RoundKeySet (R28). -/
def roundKeysOf (g : TxnRegs) : RoundKeys :=
  ⟨g.rk0, g.rk1, g.rk2⟩

/-- One round of the schedule as a function of the four words before it (R120). -/
def nextRoundKey (r : Roms) (rc : Nibble) (k : Block) : Block :=
  let temp := readTable r.sbox k.s3 ^^^ rc
  let n0 := k.s0 ^^^ temp
  let n1 := k.s1 ^^^ n0
  let n2 := k.s2 ^^^ n1
  let n3 := k.s3 ^^^ n2
  ⟨n0, n1, n2, n3⟩

/-- `expandKey(key)` as a pure function of the key (R120, R122): what a claim speaks of. That
`expandKeyRegs` computes it is stated in the obligations. -/
def expandKey (r : Roms) (key : Key) : RoundKeys :=
  let rk1 := nextRoundKey r (rcon 0) key
  ⟨key, rk1, nextRoundKey r (rcon 1) rk1⟩

/-- The round keys of `key` are computed into the transaction's registers. -/
def expandKeyState (key : Key) (s : State) : State :=
  { s with regs := expandKeyRegs s.roms key s.regs }

/-- EXPANDKEY: the three round keys of the key B; MUL and A are ignored (R121). -/
def execExpandKey (_mul : BitVec 2) (_a b : Word) (s : State) :
    Host.Outcome State Fault Refusal :=
  let s := expandKeyState (unpack b) s
  .next (complete (roundKeysData (roundKeysOf s.regs)) s)

end Sys2Proof.Machine
end

