-- ==== Sys2Proof/Machine/RowShift.lean ====
section
/-! DEFINITION. Row shift: SHIFTROWS (42_row_shift.md). -/

namespace Sys2Proof.Machine

/-- `shiftRows(s)`: positions 1 and 3 change places, 0 and 2 stay (R100). It is also InvShiftRows
(R102). -/
def shiftRows (s : Block) : Block :=
  ⟨s.s0, s.s3, s.s2, s.s1⟩

/-- SHIFTROWS: positions 1 and 3 of A change places; MUL and B are ignored (R101). -/
def execShiftRows (_mul : BitVec 2) (a _b : Word) (s : State) :
    Host.Outcome State Fault Refusal :=
  .next (complete (blockData (shiftRows (unpack a))) s)

end Sys2Proof.Machine
end

