-- ==== Sys2Proof/Machine/Substitution.lean ====
section
/-! DEFINITION. The substitution box: SUBNIBBLES and INVSUBNIBBLES (41_substitution.md). -/

namespace Sys2Proof.Machine

/-- `subNibbles(s)`: each nibble n becomes SBOX[n]; positions do not move (R90). -/
def subNibbles (r : Roms) (s : Block) : Block :=
  ⟨readTable r.sbox s.s0, readTable r.sbox s.s1, readTable r.sbox s.s2, readTable r.sbox s.s3⟩

/-- `invSubNibbles(s)`: each nibble n becomes INV_SBOX[n] (R91). -/
def invSubNibbles (r : Roms) (s : Block) : Block :=
  ⟨readTable r.invSbox s.s0, readTable r.invSbox s.s1, readTable r.invSbox s.s2,
    readTable r.invSbox s.s3⟩

/-- SUBNIBBLES: the S-box on every nibble of A; MUL and B are ignored (R92). -/
def execSubNibbles (_mul : BitVec 2) (a _b : Word) (s : State) :
    Host.Outcome State Fault Refusal :=
  .next (complete (blockData (subNibbles s.roms (unpack a))) s)

/-- INVSUBNIBBLES: the inverse S-box on every nibble of A; MUL and B are ignored (R93). -/
def execInvSubNibbles (_mul : BitVec 2) (a _b : Word) (s : State) :
    Host.Outcome State Fault Refusal :=
  .next (complete (blockData (invSubNibbles s.roms (unpack a))) s)

end Sys2Proof.Machine
end

