-- ==== Sys2Proof/Machine/Cipher.lean ====
section
/-! DEFINITION. The two pipelines: the step tables over W and STEP, the trace, ENCRYPT and DECRYPT, and
the pure functions encrypt and decrypt (46_cipher_pipelines.md). -/

namespace Sys2Proof.Machine

/-- A register of the round-key file (R28). -/
inductive RoundKeyReg where
  | rk0 | rk1 | rk2
  deriving DecidableEq, Repr

/-- What a pipeline step does to W. -/
inductive PipeOp where
  | addRoundKey (k : RoundKeyReg)
  | subNibbles
  | invSubNibbles
  | shiftRows
  | mixColumns
  deriving DecidableEq, Repr

/-- A row of the tables of R132 and R136. -/
structure PipeStep where
  label : StepLabel
  op : PipeOp
  deriving DecidableEq, Repr

/-- The round key in a register of the file. -/
def readRoundKey (rks : RoundKeys) : RoundKeyReg → Block
  | .rk0 => rks.rk0
  | .rk1 => rks.rk1
  | .rk2 => rks.rk2

/-- The value that a step gives W: each step reads W and one round key at most (R132). -/
def PipeOp.apply (r : Roms) (rks : RoundKeys) (op : PipeOp) (w : Block) : Block :=
  match op with
  | .addRoundKey k => Machine.addRoundKey w (readRoundKey rks k)
  | .subNibbles => Machine.subNibbles r w
  | .invSubNibbles => Machine.invSubNibbles r w
  | .shiftRows => Machine.shiftRows w
  | .mixColumns => Machine.mixColumns r w

/-- The encrypt step sequence (R132). -/
def encryptSteps : List PipeStep :=
  [⟨.e1, .addRoundKey .rk0⟩, ⟨.e2, .subNibbles⟩, ⟨.e3, .shiftRows⟩, ⟨.e4, .mixColumns⟩,
   ⟨.e5, .addRoundKey .rk1⟩, ⟨.e6, .subNibbles⟩, ⟨.e7, .shiftRows⟩, ⟨.e8, .addRoundKey .rk2⟩]

/-- The decrypt step sequence (R136). -/
def decryptSteps : List PipeStep :=
  [⟨.d1, .addRoundKey .rk2⟩, ⟨.d2, .shiftRows⟩, ⟨.d3, .invSubNibbles⟩, ⟨.d4, .addRoundKey .rk1⟩,
   ⟨.d5, .mixColumns⟩, ⟨.d6, .shiftRows⟩, ⟨.d7, .invSubNibbles⟩, ⟨.d8, .addRoundKey .rk0⟩]

/-- One pipeline step: W is written, STEP goes up by 1 (R31), and the trace gains its entry (R140). -/
def runStep (p : PipeStep) (s : State) : State :=
  let w := p.op.apply s.roms (roundKeysOf s.regs) s.regs.w
  { s with
    regs := { s.regs with w := w, step := s.regs.step + 1 }
    trace := s.trace ++ [.after p.label w] }

/-- A fixed sequence of steps, with no branch (R31). -/
def runSteps (ps : List PipeStep) (s : State) : State :=
  ps.foldl (fun s p => runStep p s) s

/-- The round keys are ready before the first step (R132): the key schedule runs, its result heads the
trace (R140), the input goes into W, and STEP is 0. -/
def startPipeline (input : Block) (key : Key) (s : State) : State :=
  let s := expandKeyState key s
  { s with
    regs := { s.regs with w := input, step := 0 }
    trace := [.roundKeys (roundKeysOf s.regs)] }

/-- ENCRYPT: the plaintext A under the key B; MUL is ignored (R131). -/
def execEncrypt (_mul : BitVec 2) (a b : Word) (s : State) : Host.Outcome State Fault Refusal :=
  let s := runSteps encryptSteps (startPipeline (unpack a) (unpack b) s)
  .next (complete (blockData s.regs.w) s)

/-- DECRYPT: the ciphertext A under the key B; MUL is ignored (R135). -/
def execDecrypt (_mul : BitVec 2) (a b : Word) (s : State) : Host.Outcome State Fault Refusal :=
  let s := runSteps decryptSteps (startPipeline (unpack a) (unpack b) s)
  .next (complete (blockData s.regs.w) s)

/-- One of the two rounds of R130: the column mix only after the first. -/
def encryptRound (r : Roms) (rks : RoundKeys) (w : Block) (i : Fin 2) : Block :=
  let w := subNibbles r w
  let w := shiftRows w
  let w := if i = 0 then mixColumns r w else w
  addRoundKey w (if i = 0 then rks.rk1 else rks.rk2)

/-- `encrypt(p, key)`: the loop of R130, as a pure function. -/
def encrypt (r : Roms) (p key : Block) : Block :=
  let rks := expandKey r key
  [0, 1].foldl (encryptRound r rks) (addRoundKey p rks.rk0)

/-- `decrypt(c, key)`: the eight lines of R134, as a pure function. -/
def decrypt (r : Roms) (c key : Block) : Block :=
  let rks := expandKey r key
  let w := addRoundKey c rks.rk2
  let w := shiftRows w
  let w := invSubNibbles r w
  let w := addRoundKey w rks.rk1
  let w := mixColumns r w
  let w := shiftRows w
  let w := invSubNibbles r w
  addRoundKey w rks.rk0

/-- W after a sequence of steps, as a pure function. -/
def pipelineResult (r : Roms) (rks : RoundKeys) (ps : List PipeStep) (w : Block) : Block :=
  ps.foldl (fun w p => p.op.apply r rks w) w

/-- The labelled states of a sequence of steps, as a pure function (R140). -/
def pipelineTrace (r : Roms) (rks : RoundKeys) : List PipeStep → Block → List TraceEntry
  | [], _ => []
  | p :: ps, w => .after p.label (p.op.apply r rks w) :: pipelineTrace r rks ps (p.op.apply r rks w)

/-- The trace of an ENCRYPT transaction (R140). -/
def encryptTrace (r : Roms) (p key : Block) : List TraceEntry :=
  .roundKeys (expandKey r key) :: pipelineTrace r (expandKey r key) encryptSteps p

/-- The trace of a DECRYPT transaction (R140). -/
def decryptTrace (r : Roms) (c key : Block) : List TraceEntry :=
  .roundKeys (expandKey r key) :: pipelineTrace r (expandKey r key) decryptSteps c

/-- The label of a trace entry; the entry of the round keys has none (R140). -/
def TraceEntry.label : TraceEntry → Option StepLabel
  | .roundKeys _ => none
  | .after label _ => some label

/-- A sequence with its elements i and i + 1 exchanged (R137). -/
def swapAdjacent : Nat → List PipeStep → List PipeStep
  | 0, p :: q :: ps => q :: p :: ps
  | n + 1, p :: ps => p :: swapAdjacent n ps
  | _, ps => ps

end Sys2Proof.Machine
end

