-- ==== Sys2Proof/Machine/Dispatch.lean ====
section
/-! DEFINITION. The dispatch: one arm for each operation of the table (R62, R68). -/

namespace Sys2Proof.Machine

def exec (i : Instr) (s : State) : Host.Outcome State Fault Refusal :=
  match i with
  | .encrypt mul a b => Sys2Proof.Machine.execEncrypt mul a b s
  | .decrypt mul a b => Sys2Proof.Machine.execDecrypt mul a b s
  | .expandKey mul a b => Sys2Proof.Machine.execExpandKey mul a b s
  | .subNibbles mul a b => Sys2Proof.Machine.execSubNibbles mul a b s
  | .invSubNibbles mul a b => Sys2Proof.Machine.execInvSubNibbles mul a b s
  | .shiftRows mul a b => Sys2Proof.Machine.execShiftRows mul a b s
  | .mixColumns mul a b => Sys2Proof.Machine.execMixColumns mul a b s
  | .addRoundKey mul a b => Sys2Proof.Machine.execAddRoundKey mul a b s
  | .multiply mul a b => Sys2Proof.Machine.execMultiply mul a b s

end Sys2Proof.Machine
end

