-- ==== Sys2Proof/Machine/Step.lean ====
section
/-! DEFINITION. One step of the core: one whole transaction, or nothing when the core is idle (R49, R68,
R179). -/

namespace Sys2Proof.Machine

/-- `s` with the request whose bits are `w` presented at the request port, where `step` takes its next
request. This stands for the host sending it: the core has no program memory (R31, R50;
notes/assumptions/10.md). -/
def State.withFetchWord (s : State) (_nbits w : Nat) : State :=
  present (BitVec.ofNat 38 w) s

/-- `serve(REQ)` of R68 with the port around it. With no request the core idles: the state stays as it is
(notes/assumptions/9.md). Otherwise the request is accepted, and it is either executed or, for a reserved
OP, answered with IllegalOperation before any primitive runs (R154). -/
def step (s : State) : Host.Outcome State Fault Refusal :=
  match fetch s with
  | none => .next s
  | some w =>
    match decode w with
    | .ok i => exec i (accept w s)
    | .error (.reservedOp op) => .next (raiseIllegalOperation op (accept w s))

end Sys2Proof.Machine
end

