-- ==== Sys2Proof/Machine/Assembler.lean ====
section
/-! DEFINITION. The spec's notation for requests: the assembler forms with the two pseudo-operations, and
the four-digit text of an operand (R47, R69, R70). Nothing in the core depends on it (decision D20). -/

namespace Sys2Proof.Machine

/-- A written request, over operands of type `α` (R69, R70). `raw` is the notation `OP=0xF, MUL=0, A, B`
of 95_test_vectors.md, with which a reserved OP can be sent. -/
inductive AsmForm (α : Type) where
  | encrypt (a b : α)
  | decrypt (a b : α)
  | expandKey (b : α)
  | subNibbles (a : α)
  | invSubNibbles (a : α)
  | shiftRows (a : α)
  | mixColumns (a : α)
  | addRoundKey (a b : α)
  | multiply (m : BitVec 2) (v : Nibble)
  | invShiftRows (a : α)
  | invMixColumns (a : α)
  | raw (op : BitVec 4) (mul : BitVec 2) (a b : α)
  deriving DecidableEq, Repr

/-- The request of a form; an assembler sets the ignored fields to 0 (R69), and the pseudo-operations have
no OP of their own (R70). -/
def assemble : AsmForm Word → ReqWord
  | .encrypt a b => encode (.encrypt 0 a b)
  | .decrypt a b => encode (.decrypt 0 a b)
  | .expandKey b => encode (.expandKey 0 0 b)
  | .subNibbles a => encode (.subNibbles 0 a 0)
  | .invSubNibbles a => encode (.invSubNibbles 0 a 0)
  | .shiftRows a => encode (.shiftRows 0 a 0)
  | .mixColumns a => encode (.mixColumns 0 a 0)
  | .addRoundKey a b => encode (.addRoundKey 0 a b)
  | .multiply m v => encode (.multiply m (v.setWidth 16) 0)
  | .invShiftRows a => encode (.shiftRows 0 a 0)
  | .invMixColumns a => encode (.mixColumns 0 a 0)
  | .raw op mul a b => ReqWord.ofFields op mul a b

/-- One uppercase hex digit (R47). -/
def hexDigit (n : Nibble) : Char :=
  if n.toNat < 10 then Char.ofNat (48 + n.toNat) else Char.ofNat (55 + n.toNat)

/-- The nibble of a hex digit, either case (R47); none for any other character. -/
def nibbleOfChar (c : Char) : Option Nibble :=
  let k := c.toNat
  if 48 ≤ k ∧ k ≤ 57 then some (BitVec.ofNat 4 (k - 48))
  else if 65 ≤ k ∧ k ≤ 70 then some (BitVec.ofNat 4 (k - 55))
  else if 97 ≤ k ∧ k ≤ 102 then some (BitVec.ofNat 4 (k - 87))
  else none

/-- The text of a State or Key: character i from the left is position i (R47). -/
def blockText (s : Block) : List Char :=
  [hexDigit s.s0, hexDigit s.s1, hexDigit s.s2, hexDigit s.s3]

/-- A State or Key from its text: exactly four hex digits (R47, R69). -/
def blockOfText : List Char → Option Block
  | [c0, c1, c2, c3] => do
    let n0 ← nibbleOfChar c0
    let n1 ← nibbleOfChar c1
    let n2 ← nibbleOfChar c2
    let n3 ← nibbleOfChar c3
    return ⟨n0, n1, n2, n3⟩
  | _ => none

end Sys2Proof.Machine
end

