-- ==== Sys2Proof/Machine/HostProgram.lean ====
section
/-! DEFINITION. The host's side of the two ports: one request and its response, a list of requests in
order (R174, R175), and host programs, in which an operand may name an earlier response (R71). -/

namespace Sys2Proof.Machine

/-- The host sends one request, the core serves it, and the host reads the response (R174). None where
the core was not ready, or gave no response. -/
def transact (w : ReqWord) (s : State) : Option (Response × State) :=
  match send w s with
  | none => none
  | some s1 =>
    match step s1 with
    | .next s2 => takeResponse s2
    | _ => none

/-- Requests sent one after the other, each after the response to the one before: the responses in the
order they come, and the state after the last (R174). -/
def transactAll : List ReqWord → State → Option (List Response × State)
  | [], s => some ([], s)
  | w :: ws, s =>
    match transact w s with
    | none => none
    | some (resp, s1) =>
      match transactAll ws s1 with
      | none => none
      | some (resps, s2) => some (resp :: resps, s2)

/-- Which part of an earlier response an operand takes (R71). -/
inductive ResponsePart where
  /-- `tK`: DATA[15:0]. -/
  | low
  /-- `tK.rk0`: DATA[47:32]. -/
  | rk0
  /-- `tK.rk1`: DATA[31:16]. -/
  | rk1
  /-- `tK.rk2`: DATA[15:0]. -/
  | rk2
  deriving DecidableEq, Repr

/-- An operand of a line: a four-digit literal, or a part of the response to line k, counted from 1
(R71). -/
inductive HostOperand where
  | literal (w : Word)
  | response (k : Nat) (part : ResponsePart)
  deriving DecidableEq, Repr

/-- A host program: its lines in order, line N naming its response tN (R71). -/
abbrev HostProgram := List (AsmForm HostOperand)

/-- The 16 bits of DATA that a part names (R71). -/
def responsePart (d : Data) : ResponsePart → Word
  | .low => d.extractLsb' 0 16
  | .rk0 => d.extractLsb' 32 16
  | .rk1 => d.extractLsb' 16 16
  | .rk2 => d.extractLsb' 0 16

/-- A line that has been run: its request and the response to it. -/
structure RunLine where
  request : ReqWord
  response : Response
  deriving DecidableEq, Repr

/-- The value of an operand when the lines `done` have run: `tK.rk0`, `tK.rk1` and `tK.rk2` are there for
an EXPANDKEY response only (R71), and no operand reads the DATA of a response with ERR = 1 (R152). -/
def operandValue (done : List RunLine) : HostOperand → Option Word
  | .literal w => some w
  | .response 0 _ => none
  | .response (k + 1) part =>
    match done[k]? with
    | none => none
    | some line =>
      if line.response.err then none
      else if part = .low ∨ line.request.op = 0x2 then some (responsePart line.response.data part)
      else none

/-- The form with its names replaced by values, which the host does before it sends (R71). -/
def resolve (done : List RunLine) : AsmForm HostOperand → Option (AsmForm Word)
  | .encrypt a b => do return .encrypt (← operandValue done a) (← operandValue done b)
  | .decrypt a b => do return .decrypt (← operandValue done a) (← operandValue done b)
  | .expandKey b => do return .expandKey (← operandValue done b)
  | .subNibbles a => do return .subNibbles (← operandValue done a)
  | .invSubNibbles a => do return .invSubNibbles (← operandValue done a)
  | .shiftRows a => do return .shiftRows (← operandValue done a)
  | .mixColumns a => do return .mixColumns (← operandValue done a)
  | .addRoundKey a b => do return .addRoundKey (← operandValue done a) (← operandValue done b)
  | .multiply m v => some (.multiply m v)
  | .invShiftRows a => do return .invShiftRows (← operandValue done a)
  | .invMixColumns a => do return .invMixColumns (← operandValue done a)
  | .raw op mul a b => do return .raw op mul (← operandValue done a) (← operandValue done b)

/-- Runs the lines of a program in order, after the lines `done`: the lines with their responses, and the
state after the last. None where a name has no value. -/
def runHostProgram : HostProgram → List RunLine → State → Option (List RunLine × State)
  | [], done, s => some (done, s)
  | line :: rest, done, s =>
    match resolve done line with
    | none => none
    | some form =>
      match transact (assemble form) s with
      | none => none
      | some (resp, s1) => runHostProgram rest (done ++ [⟨assemble form, resp⟩]) s1

end Sys2Proof.Machine
end

