-- ==== Sys2Proof/Machine/Serve.lean ====
section
/-! DEFINITION. What each operation answers, as a function of the tables and the request alone: the right
sides of serve(REQ) in R68. Claims are stated against it; the meanings are written over the registers. -/

namespace Sys2Proof.Machine

/-- DATA on success for each operation (R62, R65, R68). -/
def resultData (r : Roms) : Instr → Data
  | .encrypt _ a b => blockData (encrypt r (unpack a) (unpack b))
  | .decrypt _ a b => blockData (decrypt r (unpack a) (unpack b))
  | .expandKey _ _ b => roundKeysData (expandKey r (unpack b))
  | .subNibbles _ a _ => blockData (subNibbles r (unpack a))
  | .invSubNibbles _ a _ => blockData (invSubNibbles r (unpack a))
  | .shiftRows _ a _ => blockData (shiftRows (unpack a))
  | .mixColumns _ a _ => blockData (mixColumns r (unpack a))
  | .addRoundKey _ a b => blockData (addRoundKey (unpack a) (unpack b))
  | .multiply mul a _ => nibbleData (gfMul r mul (operandNibble a))

/-- What a claim may know of the response to a request: DATA for an assigned OP, the fault for a reserved
one (R68, R151, R152). -/
def expectedResult (r : Roms) (w : ReqWord) : Except Fault Data :=
  match decode w with
  | .ok i => .ok (resultData r i)
  | .error _ => .error .illegalOperation

end Sys2Proof.Machine
end

