-- ==== Sys2Proof/Machine/TableReads.lean ====
section
/-! DEFINITION. Which table entries a transaction reads, in the order of its steps (R49, R84, R120,
R180). An access list is a footprint: the obligations state that a result depends on the tables at those
entries alone. -/

namespace Sys2Proof.Machine

/-- One table read: each moves exactly one 4-bit entry (R49). -/
inductive RomAccess where
  | sbox (n : Nibble)
  | invSbox (v : Nibble)
  | gfMul (m : BitVec 2) (v : Nibble)
  deriving DecidableEq, Repr

/-- The three address spaces (R40). -/
inductive RomSpace where
  | sbox | invSbox | gfMul
  deriving DecidableEq, Repr

/-- The space that an access falls in. -/
def RomAccess.space : RomAccess → RomSpace
  | .sbox _ => .sbox
  | .invSbox _ => .invSbox
  | .gfMul _ _ => .gfMul

/-- `RomRead(rom, index)` (R15, R41). -/
def RomAccess.value (r : Roms) : RomAccess → Nibble
  | .sbox n => readTable r.sbox n
  | .invSbox v => readTable r.invSbox v
  | .gfMul m v => readGfMul r m v

/-- A column-mix step reads four GF_MUL entries per column (R105, R180). -/
def mixColReads (c0 c1 : Nibble) : List RomAccess :=
  [.gfMul 3 c0, .gfMul 2 c1, .gfMul 2 c0, .gfMul 3 c1]

/-- The reads of one pipeline step that finds `w` in W (R180). -/
def pipeOpReads (op : PipeOp) (w : Block) : List RomAccess :=
  match op with
  | .addRoundKey _ => []
  | .subNibbles => [.sbox w.s0, .sbox w.s1, .sbox w.s2, .sbox w.s3]
  | .invSubNibbles => [.invSbox w.s0, .invSbox w.s1, .invSbox w.s2, .invSbox w.s3]
  | .shiftRows => []
  | .mixColumns => mixColReads w.s0 w.s1 ++ mixColReads w.s2 w.s3

/-- The reads of a sequence of steps. -/
def pipelineReads (r : Roms) (rks : RoundKeys) : List PipeStep → Block → List RomAccess
  | [], _ => []
  | p :: ps, w => pipeOpReads p.op w ++ pipelineReads r rks ps (p.op.apply r rks w)

/-- The reads of the key schedule: one SBOX entry a round, at WX[3] and WX[7] (R120). -/
def keyScheduleReads (r : Roms) (key : Key) : List RomAccess :=
  [.sbox key.s3, .sbox (expandKey r key).rk1.s3]

/-- The reads of a whole transaction. -/
def transactionReads (r : Roms) : Instr → List RomAccess
  | .encrypt _ a b =>
    keyScheduleReads r (unpack b) ++
      pipelineReads r (expandKey r (unpack b)) encryptSteps (unpack a)
  | .decrypt _ a b =>
    keyScheduleReads r (unpack b) ++
      pipelineReads r (expandKey r (unpack b)) decryptSteps (unpack a)
  | .expandKey _ _ b => keyScheduleReads r (unpack b)
  | .subNibbles _ a _ => pipeOpReads .subNibbles (unpack a)
  | .invSubNibbles _ a _ => pipeOpReads .invSubNibbles (unpack a)
  | .shiftRows _ a _ => pipeOpReads .shiftRows (unpack a)
  | .mixColumns _ a _ => pipeOpReads .mixColumns (unpack a)
  | .addRoundKey _ a _ => pipeOpReads (.addRoundKey .rk0) (unpack a)
  | .multiply mul a _ => [.gfMul mul (operandNibble a)]

end Sys2Proof.Machine
end

