-- ==== Sys2Proof/Safety.lean ====
section
/-! DEFINITION. What counts as a safe run, in the terms that claims use: which responses are faults of
their transaction, and the invariant of the machine. -/

namespace Sys2Proof.Machine

/-- What a claim may read of a response: the result, or the fault of the transaction in place of an
unspecified DATA (R152, I6). -/
def Response.result (r : Response) : Except Fault Data :=
  if r.err then .error .illegalOperation else .ok r.data

/-- A run whose responses record no fault. Decision D10: no claim about the whole of a run that records
one rests on this model. -/
def FaultFree (rs : List Response) : Bool :=
  rs.all (fun r => !r.err)

/-- The invariant of the machine: the tables are ones the spec allows (R21 to R24), and STEP stays in its
range 0 to 8 (R26, R31). -/
def State.Inv (s : State) : Prop :=
  s.roms.Wf ∧ s.regs.step.toNat ≤ 8

/-- The operation `i` completes in the state `s` (R151): a next state, ERR = 0 and DATA = `d`, the trace
`tr`, and the frame: the tables and the request input are as before. (What the transaction registers and
the model's draws hold after an operation, whichever it is, is stated once, in
`Obligations.NothingSurvivesInTheRegisters`.) -/
def CompletesWith (i : Instr) (s : State) (d : Data) (tr : List TraceEntry) : Prop :=
  ∃ t : State, exec i s = .next t ∧ t.response = some ⟨false, d⟩ ∧ t.trace = tr ∧
    t.roms = s.roms ∧ t.request = s.request

end Sys2Proof.Machine
end

