-- ==== Sys2Proof/Certificates/Slice0/Obligations.lean ====
section
/-! DEFINITION. The statements for the provers, in the order of the spec's files: encoding, layout, tables
and field, the nine operations, the pipelines, the whole machine, reset and the host's protocol. -/

open Sys2Proof Sys2Proof.Machine

/-! ### Encoding (30_encoding.md) -/

/-- The format table of 30_encoding.md section 1: OP in bits 37:34, MUL in 33:32, A in 31:16, B in 15:0. -/
def Obligations.RequestFieldsReadBack : Prop :=
  ∀ (op : BitVec 4) (mul : BitVec 2) (a b : Word),
    (ReqWord.ofFields op mul a b).op = op ∧ (ReqWord.ofFields op mul a b).mul = mul ∧
    (ReqWord.ofFields op mul a b).a = a ∧ (ReqWord.ofFields op mul a b).b = b ∧
    (ReqWord.ofFields op mul a b).toNat =
      op.toNat * 2 ^ 34 + mul.toNat * 2 ^ 32 + a.toNat * 2 ^ 16 + b.toNat

/-- Decoding an encoded instruction gives it back, with every field at every value. -/
def Obligations.DecodeOfEncodeIsTheInstruction : Prop :=
  ∀ i : Instr, decode (encode i) = .ok i

/-- Each assigned request word is the encoding of the one instruction it decodes to, whose OP it carries:
no bit of a request is dropped. -/
def Obligations.EncodeOfDecodeIsTheWord : Prop :=
  ∀ (w : ReqWord) (i : Instr), decode w = .ok i → encode i = w ∧ i.opcode = w.op

/-- R66: a request is illegal exactly when its OP is 0x9 to 0xF; no other field value makes it so. -/
def Obligations.OnlyReservedOpIsIllegal : Prop :=
  ∀ (w : ReqWord) (s : State), ∃ (t : State) (r : Response),
    step (present w s) = .next t ∧ t.response = some r ∧
    (r.err = true ↔ 9 ≤ w.op.toNat) ∧
    (9 ≤ w.op.toNat → r.result = .error .illegalOperation)

/-- Words written out from R60 and R62 decode to the instructions they stand for (a sanity statement). -/
def Obligations.WrittenWordsDecode : Prop :=
  decode 0x009C63C3F0 = .ok (.encrypt 0 0x9C63 0xC3F0) ∧
  decode 0x0472C6C3F0 = .ok (.decrypt 0 0x72C6 0xC3F0) ∧
  decode 0x0A12340000 = .ok (.expandKey 2 0x1234 0x0000) ∧
  decode 0x0F0123FFFF = .ok (.subNibbles 3 0x0123 0xFFFF) ∧
  decode 0x10E1E10000 = .ok (.invSubNibbles 0 0xE1E1 0x0000) ∧
  decode 0x14ABCD0000 = .ok (.shiftRows 0 0xABCD 0x0000) ∧
  decode 0x1880000000 = .ok (.mixColumns 0 0x8000 0x0000) ∧
  decode 0x1CABCD5A5A = .ok (.addRoundKey 0 0xABCD 0x5A5A) ∧
  decode 0x23FFFEFFFF = .ok (.multiply 3 0xFFFE 0xFFFF) ∧
  decode 0x241234ABCD = .error (.reservedOp 0x9)

/-- The forms of R69 and the aliases of R70: an assembled request decodes to its operation with the
ignored fields 0, and a pseudo-operation has no code of its own. -/
def Obligations.AssembledFormsDecode : Prop :=
  (∀ (a b : Word) (m : BitVec 2) (v : Nibble),
    decode (assemble (.encrypt a b)) = .ok (.encrypt 0 a b) ∧
    decode (assemble (.decrypt a b)) = .ok (.decrypt 0 a b) ∧
    decode (assemble (.expandKey b)) = .ok (.expandKey 0 0 b) ∧
    decode (assemble (.subNibbles a)) = .ok (.subNibbles 0 a 0) ∧
    decode (assemble (.invSubNibbles a)) = .ok (.invSubNibbles 0 a 0) ∧
    decode (assemble (.shiftRows a)) = .ok (.shiftRows 0 a 0) ∧
    decode (assemble (.mixColumns a)) = .ok (.mixColumns 0 a 0) ∧
    decode (assemble (.addRoundKey a b)) = .ok (.addRoundKey 0 a b) ∧
    decode (assemble (.multiply m v)) = .ok (.multiply m (v.setWidth 16) 0) ∧
    decode (assemble (.invShiftRows a)) = .ok (.shiftRows 0 a 0) ∧
    decode (assemble (.invMixColumns a)) = .ok (.mixColumns 0 a 0)) ∧
  (∀ (form : AsmForm Word) (i : Instr), (∀ op mul a b, form ≠ .raw op mul a b) →
    decode (assemble form) = .ok i → i.canonical = true)

/-! ### Data layout (20_memory.md) -/

/-- R45: position 0 in the most significant nibble; pack and unpack undo each other. -/
def Obligations.PackPlacesPositionZeroHighest : Prop :=
  ∀ (s : Block) (w : Word),
    unpack (pack s) = s ∧ pack (unpack w) = w ∧
    (pack s).toNat =
      s.s0.toNat * 4096 + s.s1.toNat * 256 + s.s2.toNat * 16 + s.s3.toNat

/-- R47: four hex digits, case-insensitive, character i from the left at position i; written back in
uppercase. A text is read as `s` exactly when its uppercase form is the text of `s`. -/
def Obligations.TextFormIsFourHexDigits : Prop :=
  (∀ n : Nibble, some (hexDigit n) =
    ['0', '1', '2', '3', '4', '5', '6', '7', '8', '9', 'A', 'B', 'C', 'D', 'E', 'F'][n.toNat]?) ∧
  (∀ s : Block, blockText s =
    [hexDigit (nibbleAt s 0), hexDigit (nibbleAt s 1), hexDigit (nibbleAt s 2),
      hexDigit (nibbleAt s 3)]) ∧
  (∀ (text : List Char) (s : Block),
    blockOfText text = some s ↔ text.map Char.toUpper = blockText s)

/-- R65: where results stand in DATA, and ERR = 0 for every assigned OP. -/
def Obligations.ResultsArePlacedInData : Prop :=
  (∀ s : Block, (blockData s).extractLsb' 0 16 = pack s ∧ (blockData s).extractLsb' 16 32 = 0) ∧
  (∀ k : RoundKeys, (roundKeysData k).extractLsb' 32 16 = pack k.rk0 ∧
    (roundKeysData k).extractLsb' 16 16 = pack k.rk1 ∧
    (roundKeysData k).extractLsb' 0 16 = pack k.rk2) ∧
  (∀ n : Nibble, (nibbleData n).extractLsb' 0 4 = n ∧ (nibbleData n).extractLsb' 4 44 = 0) ∧
  (∀ (i : Instr) (s : State), ∃ t : State, exec i s = .next t ∧
    t.response = some ⟨false, resultData s.roms i⟩ ∧
    (Response.word ⟨false, resultData s.roms i⟩).extractLsb' 48 1 = 0 ∧
    (Response.word ⟨false, resultData s.roms i⟩).extractLsb' 0 48 = resultData s.roms i)

/-! ### Tables and field (10_state.md, 40_field_arithmetic.md) -/

/-- The polynomial over GF(2) that the bits of `x` stand for: bit i is the coefficient of x^i (R25,
R80). -/
noncomputable def Sys2Proof.Machine.bitPolynomial {n : Nat} (x : BitVec n) : Polynomial (ZMod 2) :=
  ∑ i ∈ Finset.range n, if x.getLsbD i then Polynomial.X ^ i else 0

/-- The first sentences of R25: the bit loop of fieldMul computes the product in GF(2)[x] / (GF_POLY),
for every polynomial of degree 4. -/
def Obligations.FieldMulIsProductModuloPolynomial : Prop :=
  ∀ (poly : BitVec 5) (m v : Nibble), poly.getLsbD 4 = true →
    bitPolynomial poly ∣
      bitPolynomial m * bitPolynomial v - bitPolynomial (fieldMul poly m v)

/-- The laws of gfMul in 40_field_arithmetic.md: the spec marks them as its own inference. Those that are
not about bijectivity hold for every degree-4 polynomial with x^0 coefficient 1; bijectivity is stated for
the polynomials that the spec allows (for x^4 + 1, say, multiplication by 3 is no bijection). -/
def Obligations.FieldMultiplicationLaws : Prop :=
  (∀ (sbox : Vector Nibble 16) (poly : BitVec 5) (u v : Nibble) (m : BitVec 2),
    poly.getLsbD 4 = true → poly.getLsbD 0 = true →
      gfMul (Roms.ofParams ⟨sbox, poly⟩) 0 v = 0 ∧
      gfMul (Roms.ofParams ⟨sbox, poly⟩) 1 v = v ∧
      gfMul (Roms.ofParams ⟨sbox, poly⟩) 2 v =
        (if v.getLsbD 3 then v <<< 1 ^^^ poly.extractLsb' 0 4 else v <<< 1) ∧
      gfMul (Roms.ofParams ⟨sbox, poly⟩) 3 v = gfMul (Roms.ofParams ⟨sbox, poly⟩) 2 v ^^^ v ∧
      gfMul (Roms.ofParams ⟨sbox, poly⟩) m (u ^^^ v) =
        gfMul (Roms.ofParams ⟨sbox, poly⟩) m u ^^^ gfMul (Roms.ofParams ⟨sbox, poly⟩) m v ∧
      gfMul (Roms.ofParams ⟨sbox, poly⟩) 3 (gfMul (Roms.ofParams ⟨sbox, poly⟩) 3 v) ^^^
        gfMul (Roms.ofParams ⟨sbox, poly⟩) 2 (gfMul (Roms.ofParams ⟨sbox, poly⟩) 2 v) = v) ∧
  (∀ (r : Roms) (m : BitVec 2), r.Wf → m ≠ 0 → Function.Bijective (gfMul r m))

/-- R94: the inverse law of the two substitution tables, for nibbles and for States, for every S-box that
the spec allows. -/
def Obligations.SubstitutionInverseLaw : Prop :=
  ∀ r : Roms, r.Wf →
    (∀ n : Nibble, readTable r.invSbox (readTable r.sbox n) = n ∧
      readTable r.sbox (readTable r.invSbox n) = n) ∧
    (∀ s : Block, invSubNibbles r (subNibbles r s) = s ∧ subNibbles r (invSubNibbles r s) = s)

/-- R102, R107, R117: row shift, column mix and key mixing are their own inverses, for every table the
spec allows. -/
def Obligations.RowShiftColumnMixKeyMixAreInvolutions : Prop :=
  ∀ (r : Roms) (s k : Block), r.Wf →
    shiftRows (shiftRows s) = s ∧ mixColumns r (mixColumns r s) = s ∧
    addRoundKey (addRoundKey s k) k = s

/-- Two inferences of 43_column_mix.md: a column of equal nibbles is a fixed point, and column mix is
linear. -/
def Obligations.ColumnMixFixedPointsAndLinearity : Prop :=
  ∀ (r : Roms), r.Wf →
    (∀ c : Nibble, mixCol r c c = (c, c)) ∧
    (∀ a b : Nibble, mixColumns r ⟨a, a, b, b⟩ = ⟨a, a, b, b⟩) ∧
    (∀ s t : Block, mixColumns r (addRoundKey s t) =
      addRoundKey (mixColumns r s) (mixColumns r t))

/-! ### The nine operations (40 to 46). `CompletesWith` (Safety.lean) says that exec answers a next state,
with which response and which trace, and that nothing else is written. -/

/-- MULTIPLY (40_field_arithmetic.md): encoding, operands, result, no exception, corner cases, example. That
two polynomials differ EXACTLY at m >= 2 and v >= 8 is the spec's own inference, in 10_state.md section 2:
"Rows 0 and 1 and the columns v = 0..7 of rows 2 and 3 are the same for every choice of GF_POLY. The
columns v = 8..F of rows 2 and 3 depend on GF_POLY". -/
def Obligations.MultiplyAnswersTheProduct : Prop :=
  (∀ w : ReqWord, w.op = 0x8 → decode w = .ok (.multiply w.mul w.a w.b)) ∧
  (∀ (mul : BitVec 2) (a b : Word) (s : State),
    CompletesWith (.multiply mul a b) s (nibbleData (gfMul s.roms mul (a.extractLsb' 0 4)))
      s.trace) ∧
  (∀ (r : Roms) (m : BitVec 2) (v : Nibble), r.Wf →
    gfMul r 0 v = 0 ∧ gfMul r 1 v = v ∧ gfMul r m 0 = 0) ∧
  (∀ (p q : Config.Params) (m : BitVec 2) (v : Nibble), ParamsAllowed p → ParamsAllowed q →
    p.gfPoly ≠ q.gfPoly →
      (gfMul (Roms.ofParams p) m v ≠ gfMul (Roms.ofParams q) m v ↔
        2 ≤ m.toNat ∧ 8 ≤ v.toNat)) ∧
  (∀ (sbox : Vector Nibble 16) (s : State), s.roms = Roms.ofParams ⟨sbox, 0x13⟩ →
    CompletesWith (.multiply 2 0x0008 0x0000) s 0x000000000003 s.trace)

/-- R90 and R92, SUBNIBBLES: encoding, operands, result, no exception, corner cases, example. -/
def Obligations.SubNibblesSubstitutesEachPosition : Prop :=
  (∀ w : ReqWord, w.op = 0x3 → decode w = .ok (.subNibbles w.mul w.a w.b)) ∧
  (∀ (mul : BitVec 2) (a b : Word) (s : State),
    CompletesWith (.subNibbles mul a b) s (blockData (subNibbles s.roms (unpack a))) s.trace) ∧
  (∀ (r : Roms) (x : Block) (p : Fin 4),
    nibbleAt (subNibbles r x) p = readTable r.sbox (nibbleAt x p)) ∧
  (∀ n : Nibble, readTable (Roms.ofParams defaultParams).sbox n ≠ n) ∧
  (∀ s : State, s.roms.Wf →
    CompletesWith (.subNibbles 0 0x0000 0x0000) s 0x00000000EEEE s.trace)

/-- R91 and R93, INVSUBNIBBLES: encoding, operands, result, no exception, corner case, example. -/
def Obligations.InvSubNibblesSubstitutesEachPosition : Prop :=
  (∀ w : ReqWord, w.op = 0x4 → decode w = .ok (.invSubNibbles w.mul w.a w.b)) ∧
  (∀ (mul : BitVec 2) (a b : Word) (s : State),
    CompletesWith (.invSubNibbles mul a b) s (blockData (invSubNibbles s.roms (unpack a)))
      s.trace) ∧
  (∀ (r : Roms) (x : Block) (p : Fin 4),
    nibbleAt (invSubNibbles r x) p = readTable r.invSbox (nibbleAt x p)) ∧
  (∀ (s : State) (x : Block), s.roms.Wf →
    CompletesWith (.invSubNibbles 0 (pack (subNibbles s.roms x)) 0x0000) s (blockData x) s.trace) ∧
  (∀ s : State, s.roms.Wf →
    CompletesWith (.invSubNibbles 0 0x4444 0x0000) s 0x000000001111 s.trace)

/-- R100 and R101, SHIFTROWS: encoding, operands, result, no exception, corner case, example; positions 1
and 3 change places, which in the matrix leaves row 0 and exchanges row 1. -/
def Obligations.ShiftRowsSwapsPositionsOneAndThree : Prop :=
  (∀ w : ReqWord, w.op = 0x5 → decode w = .ok (.shiftRows w.mul w.a w.b)) ∧
  (∀ (mul : BitVec 2) (a b : Word) (s : State),
    CompletesWith (.shiftRows mul a b) s (blockData (shiftRows (unpack a))) s.trace) ∧
  (∀ x : Block, nibbleAt (shiftRows x) 0 = nibbleAt x 0 ∧ nibbleAt (shiftRows x) 1 = nibbleAt x 3 ∧
    nibbleAt (shiftRows x) 2 = nibbleAt x 2 ∧ nibbleAt (shiftRows x) 3 = nibbleAt x 1) ∧
  (∀ (x : Block) (column : Fin 2),
    matrixEntry (shiftRows x) 0 column = matrixEntry x 0 column ∧
    matrixEntry (shiftRows x) 1 column = matrixEntry x 1 (1 - column)) ∧
  (∀ x : Block, x.s1 = x.s3 → shiftRows x = x) ∧
  (∀ s : State, CompletesWith (.shiftRows 0 0x0123 0x0000) s 0x000000000321 s.trace)

/-- R105 and R106, MIXCOLUMNS: encoding, operands, result, no exception, corner cases, example. -/
def Obligations.MixColumnsMultipliesEachColumn : Prop :=
  (∀ w : ReqWord, w.op = 0x6 → decode w = .ok (.mixColumns w.mul w.a w.b)) ∧
  (∀ (mul : BitVec 2) (a b : Word) (s : State),
    CompletesWith (.mixColumns mul a b) s (blockData (mixColumns s.roms (unpack a))) s.trace) ∧
  (∀ (r : Roms) (x : Block), mixColumns r x =
    ⟨gfMul r 3 x.s0 ^^^ gfMul r 2 x.s1, gfMul r 2 x.s0 ^^^ gfMul r 3 x.s1,
      gfMul r 3 x.s2 ^^^ gfMul r 2 x.s3, gfMul r 2 x.s2 ^^^ gfMul r 3 x.s3⟩) ∧
  (∀ r : Roms, r.Wf → mixColumns r ⟨0, 0, 0, 0⟩ = ⟨0, 0, 0, 0⟩) ∧
  (∀ (r : Roms) (c : Nibble), r.Wf → mixCol r c c = (c, c)) ∧
  (∀ (p q : Config.Params) (x : Block), ParamsAllowed p → ParamsAllowed q →
    (∀ k : Fin 4, (nibbleAt x k).toNat < 8) →
      mixColumns (Roms.ofParams p) x = mixColumns (Roms.ofParams q) x) ∧
  (∀ s : State, s.roms.Wf →
    CompletesWith (.mixColumns 0 0x1000 0x0000) s 0x000000003200 s.trace)

/-- ADDROUNDKEY (44_key_mixing.md): encoding, operands, result, no exception, corner cases, example. That on
packed words the result is the exclusive-or of the words is the spec's own inference, in 44_key_mixing.md:
"On packed words this is `pack(addRoundKey(s, k)) = pack(s) ^ pack(k)`". -/
def Obligations.AddRoundKeyXorsTheWords : Prop :=
  (∀ w : ReqWord, w.op = 0x7 → decode w = .ok (.addRoundKey w.mul w.a w.b)) ∧
  (∀ (mul : BitVec 2) (a b : Word) (s : State),
    CompletesWith (.addRoundKey mul a b) s (blockData (addRoundKey (unpack a) (unpack b)))
      s.trace) ∧
  (∀ x k : Block, pack (addRoundKey x k) = pack x ^^^ pack k) ∧
  (∀ x : Block, addRoundKey x (unpack 0x0000) = x ∧ addRoundKey x x = unpack 0x0000 ∧
    pack (addRoundKey x (unpack 0xFFFF)) = ~~~ (pack x)) ∧
  (∀ x k : Block, addRoundKey x k = addRoundKey k x) ∧
  (∀ s : State, CompletesWith (.addRoundKey 0 0xABCD 0x5A5A) s 0x00000000F197 s.trace)

/-- R121, EXPANDKEY: encoding, operands, result, no exception, corner cases, example. -/
def Obligations.ExpandKeyAnswersTheRoundKeys : Prop :=
  (∀ w : ReqWord, w.op = 0x2 → decode w = .ok (.expandKey w.mul w.a w.b)) ∧
  (∀ (mul : BitVec 2) (a b : Word) (s : State),
    CompletesWith (.expandKey mul a b) s (roundKeysData (expandKey s.roms (unpack b))) s.trace) ∧
  (∀ (r : Roms) (key : Key), (expandKey r key).rk0 = key) ∧
  (∀ (r r' : Roms) (key : Key), readTable r.sbox key.s3 = readTable r'.sbox key.s3 →
    readTable r.sbox (expandKey r key).rk1.s3 = readTable r'.sbox (expandKey r key).rk1.s3 →
      expandKey r key = expandKey r' key) ∧
  (∀ s : State, s.roms.Wf →
    CompletesWith (.expandKey 0 0x0000 0x0000) s 0x0000FFFFA5A5 s.trace)

/-- ENCRYPT (46_cipher_pipelines.md section 1): encoding, operands, result, trace, no exception, corner
cases, the source's example with its trace, for every table that the spec allows. The step-by-step trace of
the example is the spec's own inference (95_test_vectors.md section 1.1). -/
def Obligations.EncryptAnswersTheCiphertext : Prop :=
  (∀ w : ReqWord, w.op = 0x0 → decode w = .ok (.encrypt w.mul w.a w.b)) ∧
  (∀ (mul : BitVec 2) (a b : Word) (s : State),
    CompletesWith (.encrypt mul a b) s (blockData (encrypt s.roms (unpack a) (unpack b)))
      (encryptTrace s.roms (unpack a) (unpack b))) ∧
  (∀ (r : Roms) (x : Block), addRoundKey x (expandKey r x).rk0 = unpack 0x0000) ∧
  (∀ s : State, s.roms.Wf →
    CompletesWith (.encrypt 0 0x0000 0x0000) s 0x00000000E1E1
      [.roundKeys ⟨unpack 0x0000, unpack 0xFFFF, unpack 0xA5A5⟩,
        .after .e1 (unpack 0x0000), .after .e2 (unpack 0xEEEE), .after .e3 (unpack 0xEEEE),
        .after .e4 (unpack 0xEEEE), .after .e5 (unpack 0x1111), .after .e6 (unpack 0x4444),
        .after .e7 (unpack 0x4444), .after .e8 (unpack 0xE1E1)])

/-- DECRYPT (46_cipher_pipelines.md section 2): encoding, operands, result, trace, no exception, corner
cases, the source's example with its trace, for every table that the spec allows. The step-by-step trace of
the example is the spec's own inference (95_test_vectors.md section 1.1, "Decrypt trace"), and the trace
itself is the model's observation (46_cipher_pipelines.md section 3; notes/assumptions/12.md). -/
def Obligations.DecryptAnswersThePlaintext : Prop :=
  (∀ w : ReqWord, w.op = 0x1 → decode w = .ok (.decrypt w.mul w.a w.b)) ∧
  (∀ (mul : BitVec 2) (a b : Word) (s : State),
    CompletesWith (.decrypt mul a b) s (blockData (decrypt s.roms (unpack a) (unpack b)))
      (decryptTrace s.roms (unpack a) (unpack b))) ∧
  (∀ (r : Roms) (key c : Block), r.Wf → ∃! p : Block, encrypt r p key = c) ∧
  (∀ (r : Roms) (key p : Block), r.Wf → decrypt r (encrypt r p key) key = p) ∧
  (∀ s : State, s.roms.Wf →
    CompletesWith (.decrypt 0 0xE1E1 0x0000) s 0x000000000000
      [.roundKeys ⟨unpack 0x0000, unpack 0xFFFF, unpack 0xA5A5⟩,
        .after .d1 (unpack 0x4444), .after .d2 (unpack 0x4444), .after .d3 (unpack 0x1111),
        .after .d4 (unpack 0xEEEE), .after .d5 (unpack 0xEEEE), .after .d6 (unpack 0xEEEE),
        .after .d7 (unpack 0x0000), .after .d8 (unpack 0x0000)])

/-- R64: the fields that an operation does not read change nothing of what it does, and for a reserved OP
no field but OP does. -/
def Obligations.IgnoredFieldsChangeNothing : Prop :=
  (∀ (s : State) (mul mul' : BitVec 2) (a a' b b' : Word),
    exec (.encrypt mul a b) s = exec (.encrypt mul' a b) s ∧
    exec (.decrypt mul a b) s = exec (.decrypt mul' a b) s ∧
    exec (.expandKey mul a b) s = exec (.expandKey mul' a' b) s ∧
    exec (.subNibbles mul a b) s = exec (.subNibbles mul' a b') s ∧
    exec (.invSubNibbles mul a b) s = exec (.invSubNibbles mul' a b') s ∧
    exec (.shiftRows mul a b) s = exec (.shiftRows mul' a b') s ∧
    exec (.mixColumns mul a b) s = exec (.mixColumns mul' a b') s ∧
    exec (.addRoundKey mul a b) s = exec (.addRoundKey mul' a b) s) ∧
  (∀ (s : State) (mul : BitVec 2) (a a' b b' : Word), a.extractLsb' 0 4 = a'.extractLsb' 0 4 →
    exec (.multiply mul a b) s = exec (.multiply mul a' b') s) ∧
  (∀ (s : State) (w w' : ReqWord), 9 ≤ w.op.toNat → w.op = w'.op →
    step (present w s) = step (present w' s))

/-! ### Key schedule and pipelines (45, 46) -/

/-- The loop of 45_key_schedule.md over WX and TEMP computes the pure key schedule into the round-key
file, packed as R46 says, whatever the registers held before, and leaves REQ, W and STEP. -/
def Obligations.RegistersComputeTheKeySchedule : Prop :=
  ∀ (r : Roms) (key : Key) (g : TxnRegs),
    roundKeysOf (expandKeyRegs r key g) = expandKey r key ∧
    (∀ j : Fin 3,
      pack (roundKeyOfWx j (expandKeyRegs r key g)) =
        readWx ⟨4 * j.val, by omega⟩ (expandKeyRegs r key g) ++
        readWx ⟨4 * j.val + 1, by omega⟩ (expandKeyRegs r key g) ++
        readWx ⟨4 * j.val + 2, by omega⟩ (expandKeyRegs r key g) ++
        readWx ⟨4 * j.val + 3, by omega⟩ (expandKeyRegs r key g)) ∧
    roundKeyOfWx 0 (expandKeyRegs r key g) = (expandKey r key).rk0 ∧
    roundKeyOfWx 1 (expandKeyRegs r key g) = (expandKey r key).rk1 ∧
    roundKeyOfWx 2 (expandKeyRegs r key g) = (expandKey r key).rk2 ∧
    (expandKeyRegs r key g).temp = readTable r.sbox (expandKey r key).rk1.s3 ^^^ 0x2 ∧
    (expandKeyRegs r key g).req = g.req ∧ (expandKeyRegs r key g).w = g.w ∧
    (expandKeyRegs r key g).step = g.step

/-- The XOR-sum form of the key schedule, an inference of 45_key_schedule.md, over the words WX that the
registers hold at the end. -/
def Obligations.RoundKeysAreXorSums : Prop :=
  ∀ (r : Roms) (key : Key) (g : TxnRegs) (i : Fin 2) (wx : Nat → Nibble) (t : Nibble),
    (∀ k : Fin 12, wx k.val = readWx k (expandKeyRegs r key g)) →
    t = readTable r.sbox (wx (4 * i.val + 3)) ^^^ rcon i →
      wx (4 * i.val + 4) = wx (4 * i.val) ^^^ t ∧
      wx (4 * i.val + 5) = wx (4 * i.val) ^^^ wx (4 * i.val + 1) ^^^ t ∧
      wx (4 * i.val + 6) = wx (4 * i.val) ^^^ wx (4 * i.val + 1) ^^^ wx (4 * i.val + 2) ^^^ t ∧
      wx (4 * i.val + 7) =
        wx (4 * i.val) ^^^ wx (4 * i.val + 1) ^^^ wx (4 * i.val + 2) ^^^ wx (4 * i.val + 3) ^^^ t

/-- The source's vector holds for every table the spec allows, and it fixes the three S-box entries that
00_scope.md says it fixes (an inference of the spec). -/
def Obligations.SourceVectorFixesThreeEntries : Prop :=
  (∀ r : Roms, r.Wf →
    expandKey r (unpack 0x0000) = ⟨unpack 0x0000, unpack 0xFFFF, unpack 0xA5A5⟩ ∧
    encrypt r (unpack 0x0000) (unpack 0x0000) = unpack 0xE1E1 ∧
    decrypt r (unpack 0xE1E1) (unpack 0x0000) = unpack 0x0000) ∧
  (∀ (sbox : Vector Nibble 16) (poly : BitVec 5), PolyAllowed poly →
    expandKey (Roms.ofParams ⟨sbox, poly⟩) (unpack 0x0000) =
      ⟨unpack 0x0000, unpack 0xFFFF, unpack 0xA5A5⟩ →
    encrypt (Roms.ofParams ⟨sbox, poly⟩) (unpack 0x0000) (unpack 0x0000) = unpack 0xE1E1 →
      readTable sbox 0x0 = 0xE ∧ readTable sbox 0xF = 0x7 ∧ readTable sbox 0x1 = 0x4)

/-- The step tables of 46_cipher_pipelines.md compute the functions of its pseudocode. -/
def Obligations.StepTablesComputeEncryptAndDecrypt : Prop :=
  ∀ (r : Roms) (x key : Block),
    pipelineResult r (expandKey r key) encryptSteps x = encrypt r x key ∧
    pipelineResult r (expandKey r key) decryptSteps x = decrypt r x key

/-- R31: STEP is 0 before the first primitive, goes up by 1 with each, and is 8 after the last. -/
def Obligations.StepIndexCountsThePrimitives : Prop :=
  ∀ (s : State) (input : Block) (key : Key) (k : Nat), k ≤ 8 →
    (runSteps (encryptSteps.take k) (startPipeline input key s)).regs.step.toNat = k ∧
    (runSteps (decryptSteps.take k) (startPipeline input key s)).regs.step.toNat = k

/-- The trace of a transaction (46_cipher_pipelines.md, 60_exceptions.md): the round keys, then the eight
labels in order whatever the data, the last of them with the result. -/
def Obligations.TraceHasTheEightLabels : Prop :=
  ∀ (r : Roms) (x key : Block),
    (∃ w1 w2 w3 w4 w5 w6 w7 : Block, encryptTrace r x key =
      [.roundKeys (expandKey r key), .after .e1 w1, .after .e2 w2, .after .e3 w3, .after .e4 w4,
        .after .e5 w5, .after .e6 w6, .after .e7 w7, .after .e8 (encrypt r x key)]) ∧
    (∃ w1 w2 w3 w4 w5 w6 w7 : Block, decryptTrace r x key =
      [.roundKeys (expandKey r key), .after .d1 w1, .after .d2 w2, .after .d3 w3, .after .d4 w4,
        .after .d5 w5, .after .d6 w6, .after .d7 w7, .after .d8 (decrypt r x key)])

/-- Step Dj undoes step E(9-j), an inference of 46_cipher_pipelines.md. -/
def Obligations.DecryptStepsUndoEncryptSteps : Prop :=
  ∀ (r : Roms) (rks : RoundKeys) (w : Block) (j : Nat) (d e : PipeStep), r.Wf →
    decryptSteps[j]? = some d → encryptSteps[7 - j]? = some e →
      d.op.apply r rks (e.op.apply r rks w) = w

/-- Which adjacent steps may change places (46_cipher_pipelines.md, an inference with a check): counting
from 0, pairs 1 and 5 of either pipeline commute for all tables and keys; every other pair changes the
result for some input of the default tables. -/
def Obligations.OnlySubstitutionAndRowShiftCommute : Prop :=
  (∀ (r : Roms) (rks : RoundKeys) (w : Block) (n : Nat), n = 1 ∨ n = 5 →
    pipelineResult r rks (swapAdjacent n encryptSteps) w = pipelineResult r rks encryptSteps w ∧
    pipelineResult r rks (swapAdjacent n decryptSteps) w = pipelineResult r rks decryptSteps w) ∧
  (∀ n : Nat, n < 7 → n ≠ 1 → n ≠ 5 →
    (∃ w key : Block, pipelineResult (Roms.ofParams defaultParams)
        (expandKey (Roms.ofParams defaultParams) key) (swapAdjacent n encryptSteps) w ≠
      encrypt (Roms.ofParams defaultParams) w key) ∧
    (∃ w key : Block, pipelineResult (Roms.ofParams defaultParams)
        (expandKey (Roms.ofParams defaultParams) key) (swapAdjacent n decryptSteps) w ≠
      decrypt (Roms.ofParams defaultParams) w key))

/-- The round trip of 46_cipher_pipelines.md section 3: decrypt undoes encrypt for every key and plaintext,
and encrypt undoes decrypt, for every table the spec allows. The second part is the spec's own inference
there: "Also `encrypt(decrypt(C, K), K) = C` for every C". -/
def Obligations.DecryptUndoesEncrypt : Prop :=
  ∀ (r : Roms) (key x : Block), r.Wf →
    decrypt r (encrypt r x key) key = x ∧ encrypt r (decrypt r x key) key = x

/-- R139: for a fixed key, encrypt is a bijection on the States, for every table the spec allows. -/
def Obligations.EncryptIsABijection : Prop :=
  ∀ (r : Roms) (key : Block), r.Wf → Function.Bijective (fun p => encrypt r p key)

/-! ### Table reads (70_reset_and_hazards.md) -/

/-- The spaces that a transaction of each of the nine operations reads, in order, are the same for all data
(for the pipelines and the key schedule an inference of 70_reset_and_hazards.md), and only MULTIPLY reads a
row of GF_MUL other than 2 and 3. -/
def Obligations.TableReadsAreAtFixedSteps : Prop :=
  (∀ (r : Roms) (mul : BitVec 2) (a b : Word),
    (transactionReads r (.encrypt mul a b)).map RomAccess.space =
      List.replicate 2 .sbox ++ List.replicate 4 .sbox ++ List.replicate 8 .gfMul ++
        List.replicate 4 .sbox ∧
    (transactionReads r (.decrypt mul a b)).map RomAccess.space =
      List.replicate 2 .sbox ++ List.replicate 4 .invSbox ++ List.replicate 8 .gfMul ++
        List.replicate 4 .invSbox ∧
    (transactionReads r (.expandKey mul a b)).map RomAccess.space = List.replicate 2 .sbox ∧
    (transactionReads r (.subNibbles mul a b)).map RomAccess.space = List.replicate 4 .sbox ∧
    (transactionReads r (.invSubNibbles mul a b)).map RomAccess.space = List.replicate 4 .invSbox ∧
    (transactionReads r (.shiftRows mul a b)).map RomAccess.space = [] ∧
    (transactionReads r (.mixColumns mul a b)).map RomAccess.space = List.replicate 8 .gfMul ∧
    (transactionReads r (.addRoundKey mul a b)).map RomAccess.space = [] ∧
    (transactionReads r (.multiply mul a b)).map RomAccess.space = [.gfMul]) ∧
  (∀ (r : Roms) (i : Instr) (m : BitVec 2) (v : Nibble), i.opcode ≠ 0x8 →
    RomAccess.gfMul m v ∈ transactionReads r i → m = 2 ∨ m = 3)

/-- The result of an operation depends on the tables at the entries it reads and at no other. -/
def Obligations.ResultDependsOnlyOnEntriesRead : Prop :=
  ∀ (r r' : Roms) (i : Instr),
    (∀ x ∈ transactionReads r i, x.value r = x.value r') → resultData r i = resultData r' i

/-! ### The whole machine -/

/-- When the request at the port decodes to `i`, the step is `exec i` on the accepted state: REQ holds the
request, STEP is 0, the port is free, no response is pending, the trace is empty, and the tables and the
model's draws are as before. -/
def Obligations.StepRunsTheDecodedInstruction : Prop :=
  ∀ (s : State) (w : ReqWord) (i : Instr), s.request = some w → decode w = .ok i →
    ∃ s' : State, step s = exec i s' ∧ s'.regs.req = w ∧ s'.regs.step = 0 ∧ s'.request = none ∧
      s'.response = none ∧ s'.trace = [] ∧ s'.roms = s.roms ∧ s'.draws = s.draws

/-- The model's choice (notes/assumptions/9.md): a core with no request at its port keeps its state. -/
def Obligations.IdleCoreKeepsItsState : Prop :=
  ∀ s : State, s.request = none → step s = .next s

/-- R68: serve(REQ). From every state, the step that serves a request answers with what R68 gives. -/
def Obligations.StepServesTheRequest : Prop :=
  ∀ (w : ReqWord) (s : State), ∃ (t : State) (r : Response),
    step (present w s) = .next t ∧ t.response = some r ∧
    r.result = expectedResult s.roms w

/-- R151: no assigned operation can fail, for every value of MUL, A and B. -/
def Obligations.AssignedOperationsNeverFail : Prop :=
  ∀ (s : State) (op : BitVec 4) (mul : BitVec 2) (a b : Word), op.toNat ≤ 8 →
    ∃ (i : Instr) (t : State), decode (ReqWord.ofFields op mul a b) = .ok i ∧
      step (present (ReqWord.ofFields op mul a b) s) = .next t ∧
      t.response = some ⟨false, resultData s.roms i⟩

/-- R152: a reserved OP gives ERR = 1 with a DATA that no claim reads; the tables are as before; nothing of
the request is recorded, for any other reserved request, of whichever OP, leaves the same state but for the
response, and DATA, a free value, may differ with OP (notes/assumptions/22.md); and the next request is
served normally. (What the registers hold then is said in
`Obligations.NothingSurvivesInTheRegisters`.) -/
def Obligations.ReservedOpRaisesIllegalOperation : Prop :=
  ∀ (w : ReqWord) (s : State), 9 ≤ w.op.toNat →
    ∃ (t : State) (r : Response), step (present w s) = .next t ∧ t.response = some r ∧
      r.err = true ∧ r.result = .error .illegalOperation ∧
      t.roms = s.roms ∧ t.request = none ∧
      (∀ w' : ReqWord, 9 ≤ w'.op.toNat → ∃ t' : State, step (present w' s) = .next t' ∧
        { t' with response := t.response } = t) ∧
      (∀ w' : ReqWord, ∃ (t' : State) (r' : Response), step (present w' t) = .next t' ∧
        t'.response = some r' ∧ r'.result = expectedResult s.roms w')

/-- R177: nothing can write the tables: no step and no reset does. -/
def Obligations.NothingWritesTheTables : Prop :=
  ∀ s : State, (∃ t : State, step s = .next t ∧ t.roms = s.roms) ∧ (assertReset s).roms = s.roms

/-- The transaction registers hold nothing of a transaction that has ended: after every operation, after a
reserved OP and after a reset they hold the same values, whatever ran and whatever they held before, given
the same count of draws; and each of the three draws anew (R27 and R171 as the model reads them; the free
values and the counter are the model's, notes/assumptions/5.md, 11.md and 17.md). -/
def Obligations.NothingSurvivesInTheRegisters : Prop :=
  ∀ n : Nat, ∃ lost : TxnRegs, ∀ s : State, s.draws = n →
    (∀ i : Instr, ∃ t : State, exec i s = .next t ∧ t.regs = lost ∧ t.draws = n + 1) ∧
    (∀ w : ReqWord, 9 ≤ w.op.toNat → ∃ t : State, step (present w s) = .next t ∧
      t.regs = lost ∧ t.draws = n + 1) ∧
    (assertReset s).regs = lost ∧ (assertReset s).draws = n + 1

/-- The invariant holds right after reset, for every parameters that the spec allows, and the core is idle
with no response pending. (STEP = 0 there is the model's choice, notes/assumptions/4.md.) -/
def Obligations.ResetIsIdleAndMeetsTheInvariant : Prop :=
  State.reset.Inv ∧ State.reset.request = none ∧ State.reset.response = none ∧
    (∀ p : Config.Params, ParamsAllowed p → (State.resetWith p).Inv)

/-- Every step, and a reset, keeps the invariant: allowed tables, STEP within 0 to 8. -/
def Obligations.EveryStepKeepsTheInvariant : Prop :=
  ∀ s : State, s.Inv → (∃ t : State, step s = .next t ∧ t.Inv) ∧ (assertReset s).Inv

/-- What a transaction runs depends on OP alone: from any two states, whatever their tables, two requests
with the same OP go through the same labelled steps and read the same tables in the same order, whatever MUL,
A and B hold. (The last clause is only the shape of the parameter LATENCY, which no step reads: the model
proves nothing about time, notes/assumptions/15.md.) -/
def Obligations.StepsAndReadsDependOnOpOnly : Prop :=
  (∀ (w w' : ReqWord) (s s' : State), w.op = w'.op →
    ∃ t t' : State, step (present w s) = .next t ∧ step (present w' s') = .next t' ∧
      t.trace.map TraceEntry.label = t'.trace.map TraceEntry.label) ∧
  (∀ (r r' : Roms) (i i' : Instr), i.opcode = i'.opcode →
    (transactionReads r i).map RomAccess.space = (transactionReads r' i').map RomAccess.space) ∧
  (∀ (op : BitVec 4) (mul mul' : BitVec 2) (a a' b b' : Word),
    (ReqWord.ofFields op mul a b).latency = (ReqWord.ofFields op mul' a' b').latency)

/-! ### Reset and the host's protocol (70_reset_and_hazards.md) -/

/-- Reset abandons the transaction in flight (R171). However long the host then waits, no response comes; a
request sent again is answered. Its registers are lost; the clause that they are then equal in any two states
of the same count of draws is the model's choice (DESIGN CHOICE: notes/assumptions/11.md and 17.md), for the
spec leaves their values after reset unspecified (R34). -/
def Obligations.ResetAbandonsTheTransaction : Prop :=
  ∀ s : State, (assertReset s).request = none ∧ (assertReset s).response = none ∧
    (∀ s' : State, s'.draws = s.draws → (assertReset s').regs = (assertReset s).regs) ∧
    (∀ n : Nat, ∃ t : State, Sys2Proof.core.run n (assertReset s) = .next t ∧ t.response = none) ∧
    (∀ w : ReqWord, ∃ (t : State) (r : Response), step (present w (assertReset s)) = .next t ∧
      t.response = some r ∧ r.result = expectedResult s.roms w)

/-- R174: from every idle state, each request gives exactly one response, in the order of the requests,
and each response is a function of its own request (and the tables) alone. -/
def Obligations.ResponsesComeInRequestOrder : Prop :=
  ∀ (ws : List ReqWord) (s : State), s.request = none →
    ∃ (rs : List Response) (t : State), transactAll ws s = some (rs, t) ∧
      rs.map Response.result = ws.map (expectedResult s.roms) ∧
      t.request = none ∧ t.roms = s.roms

/-- A run records no fault exactly when every request sent in it is legal (decision D10, as the model
reads it, notes/assumptions/7.md). -/
def Obligations.RunIsFaultFreeIffRequestsLegal : Prop :=
  ∀ (ws : List ReqWord) (s : State), s.request = none →
    ∃ (rs : List Response) (t : State), transactAll ws s = some (rs, t) ∧
      FaultFree rs = ws.all ReqWord.wellFormed

/-- The round trip at the ports: DECRYPT of the DATA that ENCRYPT gave answers the plaintext, from every
idle state whose tables are allowed. -/
def Obligations.RoundTripThroughThePorts : Prop :=
  ∀ (s : State) (p key : Word), s.roms.Wf → s.request = none →
    ∃ (r1 r2 : Response) (s1 s2 : State),
      transact (assemble (.encrypt p key)) s = some (r1, s1) ∧ r1.err = false ∧
      transact (assemble (.decrypt (r1.data.extractLsb' 0 16) key)) s1 = some (r2, s2) ∧
      r2 = ⟨false, p.setWidth 48⟩

/-- A host program runs its lines in order (30_encoding.md section 5): line n, its names replaced by the
responses before it, is the n-th request sent, one response a line, each being what R68 gives for that
request. And it runs: a line whose names have values is sent, and the rest of the program goes on from the
state after its response. -/
def Obligations.HostProgramsRunInOrder : Prop :=
  (∀ (prog : HostProgram) (ran out : List RunLine) (s t : State), s.request = none →
    runHostProgram prog ran s = some (out, t) →
      ∃ new : List RunLine, out = ran ++ new ∧ new.length = prog.length ∧
        (∀ (n : Nat) (line : AsmForm HostOperand), prog[n]? = some line →
          ∃ (form : AsmForm Word) (x : RunLine), resolve (ran ++ new.take n) line = some form ∧
            new[n]? = some x ∧ x.request = assemble form) ∧
        (∀ x ∈ new, x.response.result = expectedResult s.roms x.request) ∧
        t.request = none ∧ t.roms = s.roms) ∧
  (∀ (line : AsmForm HostOperand) (rest : HostProgram) (ran : List RunLine) (s : State)
    (form : AsmForm Word), s.request = none → resolve ran line = some form →
      ∃ (resp : Response) (t : State), resp.result = expectedResult s.roms (assemble form) ∧
        t.request = none ∧ t.roms = s.roms ∧
        runHostProgram (line :: rest) ran s =
          runHostProgram rest (ran ++ [⟨assemble form, resp⟩]) t)
end

