-- ==== Sys2Proof/Laws/State.lean ====
section
/-! SUPPORT. One lemma per field of State for each named update, so that no later proof unfolds a record
update. A field that an update leaves alone reads as before; a field that it writes reads as written. -/

namespace Sys2Proof.Machine

variable (s : State) (w : ReqWord) (d : Data) (op : BitVec 4)

@[simp] theorem present_roms : (present w s).roms = s.roms := rfl
@[simp] theorem present_regs : (present w s).regs = s.regs := rfl
@[simp] theorem present_request : (present w s).request = some w := rfl
@[simp] theorem present_response : (present w s).response = s.response := rfl
@[simp] theorem present_trace : (present w s).trace = s.trace := rfl
@[simp] theorem present_draws : (present w s).draws = s.draws := rfl

@[simp] theorem accept_roms : (accept w s).roms = s.roms := rfl
@[simp] theorem accept_req : (accept w s).regs.req = w := rfl
@[simp] theorem accept_step : (accept w s).regs.step = 0 := rfl
@[simp] theorem accept_request : (accept w s).request = none := rfl
@[simp] theorem accept_response : (accept w s).response = none := rfl
@[simp] theorem accept_trace : (accept w s).trace = [] := rfl
@[simp] theorem accept_draws : (accept w s).draws = s.draws := rfl

@[simp] theorem discard_roms : (discard s).roms = s.roms := rfl
@[simp] theorem discard_regs : (discard s).regs = freeRegs s.draws := rfl
@[simp] theorem discard_request : (discard s).request = s.request := rfl
@[simp] theorem discard_response : (discard s).response = s.response := rfl
@[simp] theorem discard_trace : (discard s).trace = s.trace := rfl
@[simp] theorem discard_draws : (discard s).draws = s.draws + 1 := rfl

@[simp] theorem complete_roms : (complete d s).roms = s.roms := rfl
@[simp] theorem complete_regs : (complete d s).regs = freeRegs s.draws := rfl
@[simp] theorem complete_request : (complete d s).request = s.request := rfl
@[simp] theorem complete_response : (complete d s).response = some ⟨false, d⟩ := rfl
@[simp] theorem complete_trace : (complete d s).trace = s.trace := rfl
@[simp] theorem complete_draws : (complete d s).draws = s.draws + 1 := rfl

@[simp] theorem raise_roms : (raiseIllegalOperation op s).roms = s.roms := rfl
@[simp] theorem raise_regs : (raiseIllegalOperation op s).regs = freeRegs s.draws := rfl
@[simp] theorem raise_request : (raiseIllegalOperation op s).request = s.request := rfl
@[simp] theorem raise_response :
    (raiseIllegalOperation op s).response = some ⟨true, Config.freeData op s.draws⟩ := rfl
@[simp] theorem raise_trace : (raiseIllegalOperation op s).trace = s.trace := rfl
@[simp] theorem raise_draws : (raiseIllegalOperation op s).draws = s.draws + 1 := rfl

@[simp] theorem assertReset_roms : (assertReset s).roms = s.roms := rfl
@[simp] theorem assertReset_regs : (assertReset s).regs = freeRegs s.draws := rfl
@[simp] theorem assertReset_request : (assertReset s).request = none := rfl
@[simp] theorem assertReset_response : (assertReset s).response = none := rfl
@[simp] theorem assertReset_trace : (assertReset s).trace = [] := rfl
@[simp] theorem assertReset_draws : (assertReset s).draws = s.draws + 1 := rfl

variable (p : PipeStep) (input : Block) (key : Key)

@[simp] theorem expandKeyState_roms : (expandKeyState key s).roms = s.roms := by
  simp only [expandKeyState]
@[simp] theorem expandKeyState_regs :
    (expandKeyState key s).regs = expandKeyRegs s.roms key s.regs := by
  simp only [expandKeyState]
@[simp] theorem expandKeyState_request : (expandKeyState key s).request = s.request := by
  simp only [expandKeyState]
@[simp] theorem expandKeyState_response : (expandKeyState key s).response = s.response := by
  simp only [expandKeyState]
@[simp] theorem expandKeyState_trace : (expandKeyState key s).trace = s.trace := by
  simp only [expandKeyState]
@[simp] theorem expandKeyState_draws : (expandKeyState key s).draws = s.draws := by
  simp only [expandKeyState]

@[simp] theorem startPipeline_roms : (startPipeline input key s).roms = s.roms := by
  simp only [startPipeline, expandKeyState]
@[simp] theorem startPipeline_w : (startPipeline input key s).regs.w = input := by
  simp only [startPipeline, expandKeyState]
@[simp] theorem startPipeline_step : (startPipeline input key s).regs.step = 0 := by
  simp only [startPipeline, expandKeyState]
@[simp] theorem startPipeline_roundKeys :
    roundKeysOf (startPipeline input key s).regs =
      roundKeysOf (expandKeyRegs s.roms key s.regs) := by
  simp only [startPipeline, expandKeyState, roundKeysOf]
@[simp] theorem startPipeline_request : (startPipeline input key s).request = s.request := by
  simp only [startPipeline, expandKeyState]
@[simp] theorem startPipeline_response : (startPipeline input key s).response = s.response := by
  simp only [startPipeline, expandKeyState]
@[simp] theorem startPipeline_trace :
    (startPipeline input key s).trace =
      [.roundKeys (roundKeysOf (expandKeyRegs s.roms key s.regs))] := by
  simp only [startPipeline, expandKeyState, roundKeysOf]
@[simp] theorem startPipeline_draws : (startPipeline input key s).draws = s.draws := by
  simp only [startPipeline, expandKeyState]

@[simp] theorem runStep_roms : (runStep p s).roms = s.roms := rfl
@[simp] theorem runStep_w :
    (runStep p s).regs.w = p.op.apply s.roms (roundKeysOf s.regs) s.regs.w := rfl
@[simp] theorem runStep_step : (runStep p s).regs.step = s.regs.step + 1 := rfl
@[simp] theorem runStep_roundKeys : roundKeysOf (runStep p s).regs = roundKeysOf s.regs := rfl
@[simp] theorem runStep_request : (runStep p s).request = s.request := rfl
@[simp] theorem runStep_response : (runStep p s).response = s.response := rfl
@[simp] theorem runStep_trace :
    (runStep p s).trace =
      s.trace ++ [.after p.label (p.op.apply s.roms (roundKeysOf s.regs) s.regs.w)] := rfl
@[simp] theorem runStep_draws : (runStep p s).draws = s.draws := rfl

end Sys2Proof.Machine
end

