-- ==== Sys2Proof/Laws/Ops.lean ====
section
/-! SUPPORT. What each shared operation can do, said once: sending and taking, the run of a pipeline over
the registers, the end of every meaning, and the cases of a step. -/

namespace Sys2Proof.Machine

/-- A host can send exactly when no request is in flight, and then the request is presented. -/
theorem send_eq_some {w : ReqWord} {s t : State} :
    send w s = some t ↔ s.request = none ∧ t = present w s := by
  unfold send ready
  cases h : s.request <;> simp [eq_comm]

/-- Taking a response gives the pending one and leaves none pending. -/
theorem takeResponse_eq_some {s t : State} {r : Response} :
    takeResponse s = some (r, t) ↔ s.response = some r ∧ t = { s with response := none } := by
  unfold takeResponse
  cases h : s.response <;> simp [eq_comm]

/-- The free values keep STEP in its range. -/
theorem freeRegs_step (n : Nat) : (freeRegs n).step.toNat ≤ 8 := by
  have h := (Config.freeStep n).isLt
  simp only [freeRegs, BitVec.toNat_ofNat]
  omega

/-- Running the steps of a pipeline over the registers computes `pipelineResult` into W, adds
`pipelineTrace` to the trace, counts the steps in STEP and changes nothing else. -/
theorem runSteps_spec (ps : List PipeStep) (s : State) :
    (runSteps ps s).regs.w = pipelineResult s.roms (roundKeysOf s.regs) ps s.regs.w ∧
    (runSteps ps s).trace =
      s.trace ++ pipelineTrace s.roms (roundKeysOf s.regs) ps s.regs.w ∧
    (runSteps ps s).regs.step = s.regs.step + BitVec.ofNat 4 ps.length ∧
    roundKeysOf (runSteps ps s).regs = roundKeysOf s.regs ∧
    (runSteps ps s).roms = s.roms ∧ (runSteps ps s).request = s.request ∧
    (runSteps ps s).response = s.response ∧ (runSteps ps s).draws = s.draws := by
  induction ps generalizing s with
  | nil => simp [runSteps, pipelineResult, pipelineTrace]
  | cons p ps ih =>
    have h := ih (runStep p s)
    simp only [runStep_roms, runStep_w, runStep_step, runStep_roundKeys, runStep_request,
      runStep_response, runStep_trace, runStep_draws] at h
    obtain ⟨hw, htr, hst, hrest⟩ := h
    refine ⟨hw, ?_, ?_, hrest⟩
    · simp only [runSteps, List.foldl_cons] at htr ⊢
      simp [htr, pipelineTrace]
    · simp only [runSteps, List.foldl_cons] at hst ⊢
      rw [hst, List.length_cons, Nat.add_comm, BitVec.ofNat_add, BitVec.add_assoc]
      rfl

/-- Every meaning ends by completing: a next state, reached by `complete` from a state with the same
tables, request input and draws. -/
theorem exec_completes (i : Instr) (s : State) :
    ∃ d s', exec i s = .next (complete d s') ∧ s'.roms = s.roms ∧ s'.request = s.request ∧
      s'.draws = s.draws := by
  cases i with
  | encrypt mul a b =>
    obtain ⟨-, -, -, -, h1, h2, -, h3⟩ :=
      runSteps_spec encryptSteps (startPipeline (unpack a) (unpack b) s)
    exact ⟨_, runSteps encryptSteps (startPipeline (unpack a) (unpack b) s), rfl,
      h1.trans (startPipeline_roms ..), h2.trans (startPipeline_request ..),
      h3.trans (startPipeline_draws ..)⟩
  | decrypt mul a b =>
    obtain ⟨-, -, -, -, h1, h2, -, h3⟩ :=
      runSteps_spec decryptSteps (startPipeline (unpack a) (unpack b) s)
    exact ⟨_, runSteps decryptSteps (startPipeline (unpack a) (unpack b) s), rfl,
      h1.trans (startPipeline_roms ..), h2.trans (startPipeline_request ..),
      h3.trans (startPipeline_draws ..)⟩
  | expandKey mul a b => exact ⟨_, expandKeyState (unpack b) s, rfl, rfl, rfl, rfl⟩
  | subNibbles mul a b => exact ⟨_, _, rfl, rfl, rfl, rfl⟩
  | invSubNibbles mul a b => exact ⟨_, _, rfl, rfl, rfl, rfl⟩
  | shiftRows mul a b => exact ⟨_, _, rfl, rfl, rfl, rfl⟩
  | mixColumns mul a b => exact ⟨_, _, rfl, rfl, rfl, rfl⟩
  | addRoundKey mul a b => exact ⟨_, _, rfl, rfl, rfl, rfl⟩
  | multiply mul a b => exact ⟨_, _, rfl, rfl, rfl, rfl⟩

/-- The cases of a step: idle, the decoded instruction, or IllegalOperation. -/
theorem step_cases (s : State) :
    (s.request = none ∧ step s = .next s) ∨
    (∃ w i, s.request = some w ∧ decode w = .ok i ∧ step s = exec i (accept w s)) ∨
    (∃ w op, s.request = some w ∧ decode w = .error (.reservedOp op) ∧
      step s = .next (raiseIllegalOperation op (accept w s))) := by
  unfold step fetch
  cases hr : s.request with
  | none => simp
  | some w =>
    cases hd : decode w with
    | ok i => exact .inr (.inl ⟨w, i, rfl, hd, by simp only [hd]⟩)
    | error e =>
      cases e with
      | reservedOp op => exact .inr (.inr ⟨w, op, rfl, hd, by simp only [hd]⟩)

end Sys2Proof.Machine
end

