-- ==== Sys2Proof/Laws/PerInstr.lean ====
section
/-! SUPPORT. A fact about every instruction as syntax, one lemma per constructor: the OP field of its
encoded word is the OP of its row of the table, and the word is a legal request (R62, R66). -/

namespace Sys2Proof

/-- The OP field of a request built from its fields. -/
theorem ReqWord.op_ofFields (op : BitVec 4) (mul : BitVec 2) (a b : Word) :
    (ReqWord.ofFields op mul a b).op = op := by
  ext k hk
  simp only [ReqWord.op, ReqWord.ofFields, BitVec.getElem_extractLsb', BitVec.getLsbD_append]
  have h1 : ¬ 34 + k < 16 := by omega
  have h2 : ¬ 34 + k - 16 < 16 := by omega
  have h3 : ¬ 34 + k - 16 - 16 < 2 := by omega
  have h4 : 34 + k - 16 - 16 - 2 = k := by omega
  simp [h1, h2, h3, h4, BitVec.getLsbD_eq_getElem hk]

/-- A request built from its fields is legal when its OP is assigned. -/
theorem ReqWord.wellFormed_ofFields {op : BitVec 4} (h : op.toNat ≤ 8) (mul : BitVec 2) (a b : Word) :
    (ReqWord.ofFields op mul a b).wellFormed = true := by
  have h' := ReqWord.op_ofFields op mul a b
  unfold ReqWord.op at h'
  simp [ReqWord.wellFormed, h', h]

/-- The encoded word of `i` carries the OP of its row and is a legal request. -/
def Laws.EncodedOp.Statement (i : Instr) : Prop :=
  (encode i).op = i.opcode ∧ (encode i).wellFormed = true

theorem Laws.EncodedOp.encrypt (mul : BitVec 2) (a b : Word) :
    Laws.EncodedOp.Statement (.encrypt mul a b) :=
  ⟨ReqWord.op_ofFields .., ReqWord.wellFormed_ofFields (by decide) ..⟩

theorem Laws.EncodedOp.decrypt (mul : BitVec 2) (a b : Word) :
    Laws.EncodedOp.Statement (.decrypt mul a b) :=
  ⟨ReqWord.op_ofFields .., ReqWord.wellFormed_ofFields (by decide) ..⟩

theorem Laws.EncodedOp.expandKey (mul : BitVec 2) (a b : Word) :
    Laws.EncodedOp.Statement (.expandKey mul a b) :=
  ⟨ReqWord.op_ofFields .., ReqWord.wellFormed_ofFields (by decide) ..⟩

theorem Laws.EncodedOp.subNibbles (mul : BitVec 2) (a b : Word) :
    Laws.EncodedOp.Statement (.subNibbles mul a b) :=
  ⟨ReqWord.op_ofFields .., ReqWord.wellFormed_ofFields (by decide) ..⟩

theorem Laws.EncodedOp.invSubNibbles (mul : BitVec 2) (a b : Word) :
    Laws.EncodedOp.Statement (.invSubNibbles mul a b) :=
  ⟨ReqWord.op_ofFields .., ReqWord.wellFormed_ofFields (by decide) ..⟩

theorem Laws.EncodedOp.shiftRows (mul : BitVec 2) (a b : Word) :
    Laws.EncodedOp.Statement (.shiftRows mul a b) :=
  ⟨ReqWord.op_ofFields .., ReqWord.wellFormed_ofFields (by decide) ..⟩

theorem Laws.EncodedOp.mixColumns (mul : BitVec 2) (a b : Word) :
    Laws.EncodedOp.Statement (.mixColumns mul a b) :=
  ⟨ReqWord.op_ofFields .., ReqWord.wellFormed_ofFields (by decide) ..⟩

theorem Laws.EncodedOp.addRoundKey (mul : BitVec 2) (a b : Word) :
    Laws.EncodedOp.Statement (.addRoundKey mul a b) :=
  ⟨ReqWord.op_ofFields .., ReqWord.wellFormed_ofFields (by decide) ..⟩

theorem Laws.EncodedOp.multiply (mul : BitVec 2) (a b : Word) :
    Laws.EncodedOp.Statement (.multiply mul a b) :=
  ⟨ReqWord.op_ofFields .., ReqWord.wellFormed_ofFields (by decide) ..⟩

end Sys2Proof
end

