-- ==== Sys2Proof/Tests/Slice0.lean ====
section
/-! SUPPORT. The model's own tests: words written out from the encoding, vectors of 95_test_vectors.md, the
tables as the spec lists them, and a witness for each set of hypotheses in the obligations. -/

namespace Sys2Proof.Machine

/-- The response that a step leaves at the port. -/
def responseOf (o : Host.Outcome State Fault Refusal) : Option Response :=
  match o with
  | .next s => s.response
  | _ => none

/-- The trace that a step leaves. -/
def traceOf (o : Host.Outcome State Fault Refusal) : List TraceEntry :=
  match o with
  | .next s => s.trace
  | _ => []

/-- One step after reset with a request at the port. -/
def firstStep (w : Nat) : Host.Outcome State Fault Refusal :=
  step (State.reset.withFetchWord 40 w)

/-- The default tables with another of the allowed polynomials. -/
def romsWithPoly (poly : BitVec 5) : Roms :=
  Roms.ofParams ⟨defaultSbox, poly⟩

/-! ### Words written out field by field from R60 and R62: OP, MUL, A, B -/

theorem test_decode_encrypt :
    decode 0b0000_00_1001110001100011_1100001111110000 = .ok (.encrypt 0 0x9C63 0xC3F0) := by decide
theorem test_decode_decrypt :
    decode 0b0001_00_0111001011000110_1100001111110000 = .ok (.decrypt 0 0x72C6 0xC3F0) := by decide
theorem test_decode_expandKey :
    decode 0b0010_10_0001001000110100_0000000000000000 = .ok (.expandKey 2 0x1234 0) := by decide
theorem test_decode_subNibbles :
    decode 0b0011_11_0000000100100011_1111111111111111 = .ok (.subNibbles 3 0x0123 0xFFFF) := by decide
theorem test_decode_invSubNibbles :
    decode 0b0100_00_1110000111100001_0000000000000000 = .ok (.invSubNibbles 0 0xE1E1 0) := by decide
theorem test_decode_shiftRows :
    decode 0b0101_00_1010101111001101_0000000000000000 = .ok (.shiftRows 0 0xABCD 0) := by decide
theorem test_decode_mixColumns :
    decode 0b0110_00_1000000000000000_0000000000000000 = .ok (.mixColumns 0 0x8000 0) := by decide
theorem test_decode_addRoundKey :
    decode 0b0111_00_1010101111001101_0101101001011010 = .ok (.addRoundKey 0 0xABCD 0x5A5A) := by
  decide
theorem test_decode_multiply :
    decode 0b1000_11_1111111111111110_1111111111111111 = .ok (.multiply 3 0xFFFE 0xFFFF) := by decide
theorem test_decode_reserved_least :
    decode 0b1001_00_0001001000110100_1010101111001101 = .error (.reservedOp 0x9) := by decide
theorem test_decode_reserved_greatest :
    decode 0b1111_11_1111111111111111_1111111111111111 = .error (.reservedOp 0xF) := by decide
theorem test_table_word :
    decodeTableWord 40 0x1400000000 = some (.shiftRows 0 0 0) ∧ decodeTableWord 40 (2 ^ 38) = none := by
  decide
/-- The example of R69. -/
theorem test_assemble_multiply : assemble (.multiply 3 0xE) = 0x23000E0000 := by decide

/-! ### Well-formedness: each check refuses a term -/

theorem test_legal_request_refuses_reserved :
    ReqWord.wellFormed 0x241234ABCD = false ∧ ReqWord.wellFormed 0x23FFFEFFFF = true := by decide
theorem test_canonical_refuses_ignored_fields :
    Instr.canonical (.encrypt 1 0 0) = false ∧ Instr.canonical (.decrypt 1 0 0) = false ∧
    Instr.canonical (.expandKey 1 0 0) = false ∧ Instr.canonical (.expandKey 0 1 0) = false ∧
    Instr.canonical (.subNibbles 1 0 0) = false ∧ Instr.canonical (.subNibbles 0 0 1) = false ∧
    Instr.canonical (.invSubNibbles 1 0 0) = false ∧ Instr.canonical (.invSubNibbles 0 0 1) = false ∧
    Instr.canonical (.shiftRows 1 0 0) = false ∧ Instr.canonical (.shiftRows 0 0 1) = false ∧
    Instr.canonical (.mixColumns 1 0 0) = false ∧ Instr.canonical (.mixColumns 0 0 1) = false ∧
    Instr.canonical (.addRoundKey 1 0 0) = false ∧ Instr.canonical (.multiply 0 0x10 0) = false ∧
    Instr.canonical (.multiply 0 0 1) = false := by decide

/-! ### The tables as R22, R23 and R24 list them -/

theorem test_default_tables :
    Roms.ofParams defaultParams =
      ⟨#v[0xE, 0x4, 0xD, 0x1, 0x2, 0xF, 0xB, 0x8, 0x3, 0xA, 0x6, 0xC, 0x5, 0x9, 0x0, 0x7],
       #v[0xE, 0x3, 0x4, 0x8, 0x1, 0xC, 0xA, 0xF, 0x7, 0xD, 0x9, 0x6, 0xB, 0x2, 0x0, 0x5],
       #v[#v[0, 0, 0, 0, 0, 0, 0, 0, 0, 0, 0, 0, 0, 0, 0, 0],
          #v[0, 1, 2, 3, 4, 5, 6, 7, 8, 9, 0xA, 0xB, 0xC, 0xD, 0xE, 0xF],
          #v[0, 2, 4, 6, 8, 0xA, 0xC, 0xE, 3, 1, 7, 5, 0xB, 9, 0xF, 0xD],
          #v[0, 3, 6, 5, 0xC, 0xF, 0xA, 9, 0xB, 8, 0xD, 0xE, 7, 4, 1, 2]]⟩ := by decide

/-! ### Vectors of 95_test_vectors.md, one step each -/

/-- Section 2.1, with the ignored fields set. -/
theorem test_multiply : responseOf (firstStep 0x23FFFEFFFF) = some ⟨false, 0x1⟩ := by decide
theorem test_multiply_reduces : responseOf (firstStep 0x2200080000) = some ⟨false, 0x3⟩ := by decide
/-- Section 2.2, with the ignored fields set. -/
theorem test_subNibbles : responseOf (firstStep 0x0F0123FFFF) = some ⟨false, 0xE4D1⟩ := by decide
theorem test_invSubNibbles : responseOf (firstStep 0x1001230000) = some ⟨false, 0xE348⟩ := by decide
/-- Section 2.3. -/
theorem test_shiftRows : responseOf (firstStep 0x14F00F0000) = some ⟨false, 0xFF00⟩ := by decide
/-- Section 2.4. -/
theorem test_mixColumns : responseOf (firstStep 0x18F1A70000) = some ⟨false, 0x0E3E⟩ := by decide
theorem test_mixColumns_columns : responseOf (firstStep 0x1812340000) = some ⟨false, 0x74DA⟩ := by
  decide
/-- Section 2.5. -/
theorem test_addRoundKey : responseOf (firstStep 0x1CABCD5A5A) = some ⟨false, 0xF197⟩ := by decide
/-- Section 2.6. -/
theorem test_expandKey : responseOf (firstStep 0x080000C3F0) = some ⟨false, 0xC3F030FF6696⟩ := by
  decide
theorem test_expandKey_ABCD : responseOf (firstStep 0x080000ABCD) = some ⟨false, 0xABCD29583AF7⟩ := by
  decide
/-- Section 1.2: the published example and its trace. -/
theorem test_encrypt : responseOf (firstStep 0x009C63C3F0) = some ⟨false, 0x72C6⟩ := by decide
theorem test_encrypt_trace : traceOf (firstStep 0x009C63C3F0) =
    [.roundKeys ⟨unpack 0xC3F0, unpack 0x30FF, unpack 0x6696⟩,
      .after .e1 (unpack 0x5F93), .after .e2 (unpack 0xF7A1), .after .e3 (unpack 0xF1A7),
      .after .e4 (unpack 0x0E3E), .after .e5 (unpack 0x3EC1), .after .e6 (unpack 0x1054),
      .after .e7 (unpack 0x1450), .after .e8 (unpack 0x72C6)] := by decide
theorem test_decrypt : responseOf (firstStep 0x0472C6C3F0) = some ⟨false, 0x9C63⟩ := by decide
theorem test_decrypt_trace : traceOf (firstStep 0x0472C6C3F0) =
    [.roundKeys ⟨unpack 0xC3F0, unpack 0x30FF, unpack 0x6696⟩,
      .after .d1 (unpack 0x1450), .after .d2 (unpack 0x1054), .after .d3 (unpack 0x3EC1),
      .after .d4 (unpack 0x0E3E), .after .d5 (unpack 0xF1A7), .after .d6 (unpack 0xF7A1),
      .after .d7 (unpack 0x5F93), .after .d8 (unpack 0x9C63)] := by decide
/-- Section 1.2: what the other two polynomials give. -/
theorem test_encrypt_other_polynomials :
    pack (encrypt (romsWithPoly 0x19) (unpack 0x9C63) (unpack 0xC3F0)) = 0xCA24 ∧
    pack (encrypt (romsWithPoly 0x1F) (unpack 0x9C63) (unpack 0xC3F0)) = 0x1F7B := by decide
/-- Section 2.8: ERR = 1; DATA is a free value, so only the fault is read. -/
theorem test_reserved : (responseOf (firstStep 0x3C1234ABCD)).map (fun r => r.err) = some true := by
  decide
/-- The host program notation of R71: line 2 of program P1, after its line 1. -/
theorem test_host_line : (runHostProgram [.addRoundKey (.literal 0x1234) (.response 1 .rk0)]
    [⟨0x080000ABCD, ⟨false, 0xABCD29583AF7⟩⟩] State.reset).map
      (fun x => x.1.map (fun l => l.response)) =
    some [⟨false, 0xABCD29583AF7⟩, ⟨false, 0xB9F9⟩] := by decide
theorem test_text : blockOfText ['9', 'c', '6', '3'] = some (unpack 0x9C63) ∧
    blockOfText ['9', 'g', '6', '3'] = none ∧ blockText (unpack 0x9C63) = ['9', 'C', '6', '3'] := by
  decide

/-! ### Witnesses: each set of hypotheses in the obligations is met -/

theorem test_witness_tables_allowed : (Roms.ofParams defaultParams).Wf :=
  ⟨defaultParams, by decide, rfl⟩

/-- An assembled form that is not raw, and the instruction it decodes to. -/
theorem test_witness_assembled : ∃ (form : AsmForm Word) (i : Instr),
    (∀ op mul a b, form ≠ .raw op mul a b) ∧ decode (assemble form) = .ok i :=
  ⟨.multiply 3 0xE, .multiply 3 0x000E 0, by simp, by decide⟩

theorem test_witness_params_differ : ∃ p q : Config.Params,
    ParamsAllowed p ∧ ParamsAllowed q ∧ p.gfPoly ≠ q.gfPoly :=
  ⟨defaultParams, ⟨defaultSbox, 0x1F⟩, by decide, by decide, by decide⟩

theorem test_witness_poly_degree_four :
    (0x13 : BitVec 5).getLsbD 4 = true ∧ (0x13 : BitVec 5).getLsbD 0 = true := by decide

theorem test_witness_state_with_poly : ∃ (sbox : Vector Nibble 16) (s : State),
    s.roms = Roms.ofParams ⟨sbox, 0x13⟩ ∧ s.roms.Wf :=
  ⟨defaultSbox, State.reset, rfl, test_witness_tables_allowed⟩

/-- A legal request for each OP, from the least to the greatest. -/
theorem test_witness_ops : ReqWord.op 0x0000000000 = 0x0 ∧ ReqWord.op 0x0400000000 = 0x1 ∧
    ReqWord.op 0x0800000000 = 0x2 ∧ ReqWord.op 0x0C00000000 = 0x3 ∧ ReqWord.op 0x1000000000 = 0x4 ∧
    ReqWord.op 0x1400000000 = 0x5 ∧ ReqWord.op 0x1800000000 = 0x6 ∧ ReqWord.op 0x1C00000000 = 0x7 ∧
    ReqWord.op 0x2000000000 = 0x8 := by decide

/-- The least and the greatest reserved OP, in requests that differ in the other fields. -/
theorem test_witness_reserved : 9 ≤ (ReqWord.op 0x2400000000).toNat ∧
    9 ≤ (ReqWord.op 0x3C00000000).toNat ∧ ReqWord.op 0x3C00000000 = ReqWord.op 0x3FFFFFFFFF := by
  decide

/-- Two requests with the same assigned OP and different data, and two such instructions. -/
theorem test_witness_same_op : ReqWord.op 0x009C63C3F0 = ReqWord.op 0x03FFFF0000 ∧
    Instr.opcode (.encrypt 0 0x9C63 0xC3F0) = Instr.opcode (.encrypt 3 0xFFFF 0x0000) := by decide

theorem test_witness_multiply_ignored : (0xFFFE : Word).extractLsb' 0 4 = (0x000E : Word).extractLsb' 0 4 := by
  decide

theorem test_witness_shiftRows_fixed : ∃ x : Block, x.s1 = x.s3 := ⟨unpack 0x0F0F, by decide⟩

theorem test_witness_below_eight : ∀ k : Fin 4, (nibbleAt (unpack 0x0707) k).toNat < 8 := by decide

/-- Two different sets of tables that agree where the key schedule of key 0000 reads: entries 0 and F. -/
theorem test_witness_expandKey_reads : ∃ r r' : Roms, r ≠ r' ∧
    readTable r.sbox 0x0 = readTable r'.sbox 0x0 ∧
    readTable r.sbox (expandKey r (unpack 0)).rk1.s3 =
      readTable r'.sbox (expandKey r (unpack 0)).rk1.s3 :=
  ⟨romsWithPoly 0x13, Roms.ofParams ⟨defaultSbox.set 2 0x1 |>.set 3 0xD, 0x13⟩, by decide, by decide,
    by decide⟩

theorem test_witness_xor_sums : ∃ (wx : Nat → Nibble) (t : Nibble),
    (∀ k : Fin 12, wx k.val =
      readWx k (expandKeyRegs (romsWithPoly 0x13) (unpack 0xC3F0) TxnRegs.reset)) ∧
    t = readTable (romsWithPoly 0x13).sbox (wx (4 * (1 : Fin 2).val + 3)) ^^^ rcon 1 :=
  ⟨fun n => if h : n < 12 then
      readWx ⟨n, h⟩ (expandKeyRegs (romsWithPoly 0x13) (unpack 0xC3F0) TxnRegs.reset) else 0, _,
    fun k => by simp, rfl⟩

theorem test_witness_source_vector : PolyAllowed 0x13 ∧
    expandKey (romsWithPoly 0x13) (unpack 0) = ⟨unpack 0, unpack 0xFFFF, unpack 0xA5A5⟩ ∧
    encrypt (romsWithPoly 0x13) (unpack 0) (unpack 0) = unpack 0xE1E1 := by decide

theorem test_witness_step_pairs : decryptSteps[0]? = some ⟨.d1, .addRoundKey .rk2⟩ ∧
    encryptSteps[7 - 0]? = some ⟨.e8, .addRoundKey .rk2⟩ ∧
    decryptSteps[7]? = some ⟨.d8, .addRoundKey .rk0⟩ ∧
    encryptSteps[7 - 7]? = some ⟨.e1, .addRoundKey .rk0⟩ := by decide

theorem test_witness_mix_reads : Instr.opcode (.mixColumns 0 0x8000 0) ≠ 0x8 ∧
    RomAccess.gfMul 3 0x8 ∈ transactionReads (romsWithPoly 0x13) (.mixColumns 0 0x8000 0) := by decide

/-- Two different sets of tables that agree on every entry that SUBNIBBLES 0123 reads. -/
theorem test_witness_footprint : romsWithPoly 0x13 ≠ romsWithPoly 0x19 ∧
    ∀ x ∈ transactionReads (romsWithPoly 0x13) (.subNibbles 0 0x0123 0),
      x.value (romsWithPoly 0x13) = x.value (romsWithPoly 0x19) := by decide

theorem test_witness_request_at_port : ∃ (s : State) (w : ReqWord) (i : Instr),
    s.request = some w ∧ decode w = .ok i :=
  ⟨State.reset.withFetchWord 40 0x1400000000, 0x1400000000, .shiftRows 0 0 0, rfl, by decide⟩

theorem test_witness_idle : State.reset.request = none := rfl

theorem test_witness_invariant : State.reset.Inv :=
  ⟨test_witness_tables_allowed, by decide⟩

theorem test_witness_op_range : (0x0 : BitVec 4).toNat ≤ 8 ∧ (0x8 : BitVec 4).toNat ≤ 8 := by decide

theorem test_witness_step_count : (0 : Nat) ≤ 8 ∧ (8 : Nat) ≤ 8 := by decide

theorem test_witness_swaps : ((1 : Nat) = 1 ∨ (1 : Nat) = 5) ∧
    ((0 : Nat) < 7 ∧ (0 : Nat) ≠ 1 ∧ (0 : Nat) ≠ 5) ∧ ((6 : Nat) < 7 ∧ (6 : Nat) ≠ 1 ∧ (6 : Nat) ≠ 5) := by
  decide

/-- A state that no draw distinguishes from reset, in another transaction's registers. -/
theorem test_witness_same_draws : ∃ s s' : State, s ≠ s' ∧ s.draws = s'.draws :=
  ⟨State.reset, accept 0x1 State.reset, by decide, rfl⟩

/-- A host program that runs to its end. -/
theorem test_witness_host_program : ∃ (prog : HostProgram) (out : List RunLine × State),
    State.reset.request = none ∧ prog[0]? = some (.shiftRows (.literal 0x1234)) ∧
    runHostProgram prog [] State.reset = some out :=
  ⟨[.shiftRows (.literal 0x1234)], _, rfl, rfl, rfl⟩

/-- A line whose name has a value: line 2 of program P1, after its line 1. -/
theorem test_witness_line_resolves :
    resolve [⟨0x080000ABCD, ⟨false, 0xABCD29583AF7⟩⟩]
      (.addRoundKey (.literal 0x1234) (.response 1 .rk0)) = some (.addRoundKey 0x1234 0xABCD) := by
  decide

end Sys2Proof.Machine
end

section
/-! Data layout (20_memory.md): the number of a packed State (R45) and the text form of a State (R47).
Each is stated as a number first, of `pack s` and of a character; `omega` then compares the numbers. -/

namespace Sys2Proof.Machine

/-! ### pack and unpack (R45) -/

/-- Appending a nibble on the right is a step of Horner's rule in base 16. -/
theorem toNat_append_nibble {k : Nat} (x : BitVec k) (n : Nibble) :
    (x ++ n).toNat = x.toNat * 16 + n.toNat := by
  rw [BitVec.toNat_append, ← Nat.shiftLeft_add_eq_or_of_lt n.isLt, Nat.shiftLeft_eq]

theorem pack_toNat (s : Block) :
    (pack s).toNat =
      s.s0.toNat * 4096 + s.s1.toNat * 256 + s.s2.toNat * 16 + s.s3.toNat := by
  simp only [pack, toNat_append_nibble]
  omega

/-- Four bits of a word from bit `i` on, as a digit of the word's number. -/
theorem extractNibble_toNat (w : Word) (i : Nat) :
    (w.extractLsb' i 4).toNat = w.toNat / 2 ^ i % 16 := by
  rw [BitVec.extractLsb'_toNat, Nat.shiftRight_eq_div_pow]

@[simp] theorem unpack_pack (s : Block) : unpack (pack s) = s := by
  have h0 := s.s0.isLt
  have h1 := s.s1.isLt
  have h2 := s.s2.isLt
  have h3 := s.s3.isLt
  ext1 <;> apply BitVec.eq_of_toNat_eq <;>
    simp only [unpack, extractNibble_toNat, pack_toNat] <;> omega

@[simp] theorem pack_unpack (w : Word) : pack (unpack w) = w := by
  apply BitVec.eq_of_toNat_eq
  have hw := w.isLt
  simp only [pack_toNat, unpack, extractNibble_toNat]
  omega

/-- Settles O7: the two inverse laws and the number of a packed State, whose base-16 digits are the
positions in order. -/
theorem packPlacesPositionZeroHighest : Obligations.PackPlacesPositionZeroHighest :=
  fun s w => ⟨unpack_pack s, pack_unpack w, pack_toNat s⟩

/-! ### The text form (R47) -/

/-- The 16 uppercase hex digits in the order of their values (R47). -/
theorem hexDigit_eq_getElem? (n : Nibble) : some (hexDigit n) =
    ['0', '1', '2', '3', '4', '5', '6', '7', '8', '9', 'A', 'B', 'C', 'D', 'E', 'F'][n.toNat]? := by
  revert n
  decide

theorem hexDigit_toNat (n : Nibble) :
    n.toNat < 10 ∧ (hexDigit n).toNat = 48 + n.toNat ∨
      10 ≤ n.toNat ∧ (hexDigit n).toNat = 55 + n.toNat := by
  revert n
  decide

/-- Uppercase moves the code points of 'a' to 'z' down by 32 and leaves every other one. -/
theorem toUpper_toNat (c : Char) :
    (97 ≤ c.toNat ∧ c.toNat ≤ 122) ∧ c.toUpper.toNat = c.toNat - 32 ∨
      ¬ (97 ≤ c.toNat ∧ c.toNat ≤ 122) ∧ c.toUpper.toNat = c.toNat := by
  have hrange : ('a'.val ≤ c.val ∧ c.val ≤ 'z'.val) ↔ 97 ≤ c.toNat ∧ c.toNat ≤ 122 := Iff.rfl
  rw [← hrange]
  unfold Char.toUpper
  split
  case isTrue h =>
    have hoffset : ('A'.val - 'a'.val).toNat = 2 ^ 32 - 32 := rfl
    refine .inl ⟨h, ?_⟩
    calc (c.val + ('A'.val - 'a'.val)).toNat
        = (c.toNat + (2 ^ 32 - 32)) % 2 ^ 32 := by rw [UInt32.toNat_add, hoffset]; rfl
      _ = c.toNat - 32 := by have := hrange.mp h; omega
  case isFalse h => exact .inr ⟨h, rfl⟩

/-- A character is read as `n` exactly when its uppercase form is the digit of `n`: R47's "either
case", and no other character is a digit. -/
theorem nibbleOfChar_eq_some_iff (c : Char) (n : Nibble) :
    nibbleOfChar c = some n ↔ c.toUpper = hexDigit n := by
  have hn := n.isLt
  have hsome (k : Nat) : some (BitVec.ofNat 4 k) = some n ↔ k % 16 = n.toNat := by
    rw [Option.some.injEq, ← BitVec.toNat_inj, BitVec.toNat_ofNat]
  have hupper := toUpper_toNat c
  have hdigit := hexDigit_toNat n
  rw [← Char.toNat_inj]
  simp only [nibbleOfChar]
  split_ifs with hdecimal hcapital hsmall
  · rw [hsome]; omega
  · rw [hsome]; omega
  · rw [hsome]; omega
  · simp only [false_iff]; omega

/-- Reading four characters reads each one at its position. -/
theorem blockOfText_four (c0 c1 c2 c3 : Char) (s : Block) :
    blockOfText [c0, c1, c2, c3] = some s ↔
      nibbleOfChar c0 = some s.s0 ∧ nibbleOfChar c1 = some s.s1 ∧
      nibbleOfChar c2 = some s.s2 ∧ nibbleOfChar c3 = some s.s3 := by
  simp [blockOfText, Option.bind_eq_some_iff, Block.ext_iff]

/-- A text is read as `s` exactly when its uppercase form is the text of `s`; both need four
characters. -/
theorem blockOfText_eq_some_iff (text : List Char) (s : Block) :
    blockOfText text = some s ↔ text.map Char.toUpper = blockText s := by
  match text with
  | [c0, c1, c2, c3] =>
    simp only [blockOfText_four, nibbleOfChar_eq_some_iff, blockText, List.map_cons, List.map_nil,
      List.cons.injEq, and_true]
  | [] | [_] | [_, _] | [_, _, _] | _ :: _ :: _ :: _ :: _ :: _ => simp [blockOfText, blockText]

/-- Settles O8: the digits are R47's, a text is written position by position, and it is read back
character by character (`nibbleOfChar_eq_some_iff`). -/
theorem textFormIsFourHexDigits : Obligations.TextFormIsFourHexDigits :=
  ⟨hexDigit_eq_getElem?, fun _ => rfl, blockOfText_eq_some_iff⟩

end Sys2Proof.Machine
end

section
/-! Requests and responses (30_encoding.md, R64 to R68): every operation completes with `resultData`,
which R65 places in DATA; the decoder refuses the reserved OPs and no other; and a step serves its
request. -/

namespace Sys2Proof.Machine

/-! ### The key schedule over the registers (R120) -/

theorem roundKeyOfWx_loadKey (key : Key) (g : TxnRegs) : roundKeyOfWx 0 (loadKey key g) = key := by
  simp [roundKeyOfWx, readWx, loadKey, Vector.get_eq_getElem]

/-- A pass of the loop computes the next round key from the one before. -/
theorem roundKeyOfWx_keyRound_succ (r : Roms) (i : Fin 2) (g : TxnRegs) :
    roundKeyOfWx i.succ (keyRound r i g) = nextRoundKey r (rcon i) (roundKeyOfWx i.castSucc g) := by
  simp [roundKeyOfWx, readWx, keyRound, nextRoundKey, Vector.get_eq_getElem, Nat.mul_add]

/-- A pass of the loop leaves the round keys before the one it computes. -/
theorem roundKeyOfWx_keyRound_of_le (r : Roms) {i : Fin 2} {j : Fin 3} (h : j.val ≤ i.val)
    (g : TxnRegs) : roundKeyOfWx j (keyRound r i g) = roundKeyOfWx j g := by
  have hword (k : Nat) (hk : k < 4 * i.val + 4) :
      readWx ⟨k, by omega⟩ (keyRound r i g) = readWx ⟨k, by omega⟩ g := by
    simp only [readWx, keyRound, Vector.get_eq_getElem]
    rw [Vector.getElem_set_ne _ _ (by omega), Vector.getElem_set_ne _ _ (by omega),
      Vector.getElem_set_ne _ _ (by omega), Vector.getElem_set_ne _ _ (by omega)]
  simp only [roundKeyOfWx]
  rw [hword _ (by omega), hword _ (by omega), hword _ (by omega), hword _ (by omega)]

/-- The loop over WX and TEMP computes the pure key schedule, whatever the registers held before. -/
@[simp] theorem roundKeysOf_expandKeyRegs (r : Roms) (key : Key) (g : TxnRegs) :
    roundKeysOf (expandKeyRegs r key g) = expandKey r key := by
  have hkey := roundKeyOfWx_loadKey key g
  have hrk1 : roundKeyOfWx 1 (keyRound r 0 (loadKey key g)) = nextRoundKey r (rcon 0) key :=
    (roundKeyOfWx_keyRound_succ r 0 _).trans (congrArg _ hkey)
  have hrk2 : roundKeyOfWx 2 (keyRound r 1 (keyRound r 0 (loadKey key g))) =
      nextRoundKey r (rcon 1) (nextRoundKey r (rcon 0) key) :=
    (roundKeyOfWx_keyRound_succ r 1 _).trans (congrArg _ hrk1)
  have hkeep0 := (roundKeyOfWx_keyRound_of_le r (i := 1) (j := 0) (by decide)
    (keyRound r 0 (loadKey key g))).trans (roundKeyOfWx_keyRound_of_le r (by decide) _)
  have hkeep1 := roundKeyOfWx_keyRound_of_le r (i := 1) (j := 1) (by decide)
    (keyRound r 0 (loadKey key g))
  exact RoundKeys.ext (hkeep0.trans hkey) (hkeep1.trans hrk1) hrk2

/-! ### What each operation answers (R65, R68) -/

/-- An operation that runs a pipeline and answers W completes with `pipelineResult` and
`pipelineTrace`. -/
theorem completesWith_of_exec_pipeline {i : Instr} {s : State} {ps : List PipeStep}
    {input key : Block}
    (hexec : exec i s = .next (complete (blockData (runSteps ps (startPipeline input key s)).regs.w)
      (runSteps ps (startPipeline input key s)))) :
    CompletesWith i s (blockData (pipelineResult s.roms (expandKey s.roms key) ps input))
      (.roundKeys (expandKey s.roms key) ::
        pipelineTrace s.roms (expandKey s.roms key) ps input) := by
  obtain ⟨hw, htrace, -, -, hroms, hrequest, -, -⟩ := runSteps_spec ps (startPipeline input key s)
  refine ⟨_, hexec, ?_, ?_, ?_, ?_⟩
  · simp [hw]
  · simp [htrace]
  · simp [hroms]
  · simp [hrequest]

theorem encrypt_completesWith (mul : BitVec 2) (a b : Word) (s : State) :
    CompletesWith (.encrypt mul a b) s (blockData (encrypt s.roms (unpack a) (unpack b)))
      (encryptTrace s.roms (unpack a) (unpack b)) :=
  completesWith_of_exec_pipeline (ps := encryptSteps) rfl

theorem decrypt_completesWith (mul : BitVec 2) (a b : Word) (s : State) :
    CompletesWith (.decrypt mul a b) s (blockData (decrypt s.roms (unpack a) (unpack b)))
      (decryptTrace s.roms (unpack a) (unpack b)) :=
  completesWith_of_exec_pipeline (ps := decryptSteps) rfl

theorem expandKey_completesWith (mul : BitVec 2) (a b : Word) (s : State) :
    CompletesWith (.expandKey mul a b) s (roundKeysData (expandKey s.roms (unpack b))) s.trace := by
  refine ⟨complete (roundKeysData (roundKeysOf (expandKeyState (unpack b) s).regs))
    (expandKeyState (unpack b) s), rfl, ?_, ?_, ?_, ?_⟩ <;> simp

/-- Every operation completes with the DATA that serve(REQ) gives it; only the pipelines write the
trace. -/
theorem exec_completesWith (i : Instr) (s : State) :
    ∃ tr, CompletesWith i s (resultData s.roms i) tr := by
  cases i with
  | encrypt mul a b => exact ⟨_, encrypt_completesWith mul a b s⟩
  | decrypt mul a b => exact ⟨_, decrypt_completesWith mul a b s⟩
  | expandKey mul a b => exact ⟨_, expandKey_completesWith mul a b s⟩
  | subNibbles | invSubNibbles | shiftRows | mixColumns | addRoundKey | multiply =>
    exact ⟨s.trace, _, rfl, rfl, rfl, rfl, rfl⟩

/-- The response to an operation: ERR = 0 and the result. -/
theorem exec_response (i : Instr) (s : State) :
    ∃ t : State, exec i s = .next t ∧ t.response = some ⟨false, resultData s.roms i⟩ := by
  obtain ⟨_, t, hexec, hresponse, -⟩ := exec_completesWith i s
  exact ⟨t, hexec, hresponse⟩

/-! ### Where results stand in DATA (R61, R65) -/

/-- The bits of a zero extension above its operand are 0. -/
theorem extractLsb'_setWidth_above {n : Nat} (x : BitVec n) (m k : Nat) :
    (x.setWidth m).extractLsb' n k = 0 := by
  ext i hi
  simp

theorem blockData_placement (s : Block) :
    (blockData s).extractLsb' 0 16 = pack s ∧ (blockData s).extractLsb' 16 32 = 0 :=
  ⟨by rw [blockData, BitVec.extractLsb'_setWidth_of_le (by decide), BitVec.extractLsb'_eq_self],
    extractLsb'_setWidth_above ..⟩

theorem nibbleData_placement (n : Nibble) :
    (nibbleData n).extractLsb' 0 4 = n ∧ (nibbleData n).extractLsb' 4 44 = 0 :=
  ⟨by rw [nibbleData, BitVec.extractLsb'_setWidth_of_le (by decide), BitVec.extractLsb'_eq_self],
    extractLsb'_setWidth_above ..⟩

theorem roundKeysData_placement (k : RoundKeys) :
    (roundKeysData k).extractLsb' 32 16 = pack k.rk0 ∧
    (roundKeysData k).extractLsb' 16 16 = pack k.rk1 ∧
    (roundKeysData k).extractLsb' 0 16 = pack k.rk2 := by
  unfold roundKeysData
  refine ⟨?_, ?_, BitVec.extractLsb'_append_eq_right⟩
  · rw [BitVec.extractLsb'_append_eq_of_le (by decide)]
    exact BitVec.extractLsb'_append_eq_left
  · rw [BitVec.extractLsb'_append_eq_of_le (by decide)]
    exact BitVec.extractLsb'_append_eq_right

/-- ERR is bit 48 of the response word and DATA the bits below it (R61). -/
theorem response_word_placement (r : Response) :
    (Response.word r).extractLsb' 48 1 = BitVec.ofBool r.err ∧
    (Response.word r).extractLsb' 0 48 = r.data :=
  ⟨BitVec.extractLsb'_append_eq_left, BitVec.extractLsb'_append_eq_right⟩

/-- Settles O9: the placement of the three kinds of result, and the response of every operation. -/
theorem resultsArePlacedInData : Obligations.ResultsArePlacedInData := by
  refine ⟨blockData_placement, roundKeysData_placement, nibbleData_placement, fun i s => ?_⟩
  obtain ⟨t, hexec, hresponse⟩ := exec_response i s
  exact ⟨t, hexec, hresponse, response_word_placement _⟩

/-! ### Which requests are legal (R66) -/

/-- The decoder refuses the reserved OPs, each by its name, and no other request. -/
theorem decode_eq_error_iff (w : ReqWord) (op : BitVec 4) :
    decode w = .error (.reservedOp op) ↔ 9 ≤ w.op.toNat ∧ w.op = op := by
  unfold decode
  generalize w.op.toNat = n
  match n with
  | 0 | 1 | 2 | 3 | 4 | 5 | 6 | 7 | 8 => simp
  | n + 9 => simp

/-- The result of a request is the fault exactly when its OP is reserved. -/
theorem expectedResult_eq_error_iff (r : Roms) (w : ReqWord) :
    expectedResult r w = .error .illegalOperation ↔ 9 ≤ w.op.toNat := by
  unfold expectedResult
  match h : decode w with
  | .ok i =>
    have hnot : ¬ 9 ≤ w.op.toNat := fun hop => by
      simpa [h] using (decode_eq_error_iff w w.op).mpr ⟨hop, rfl⟩
    simp [hnot]
  | .error (.reservedOp op) =>
    obtain ⟨hop, -⟩ := (decode_eq_error_iff w op).mp h
    simp [hop]

/-- A claim reads the fault exactly from a response with ERR = 1 (R152). -/
theorem Response.result_eq_error_iff (r : Response) :
    r.result = .error .illegalOperation ↔ r.err = true := by
  simp [Response.result]

/-! ### Serving a request (R68) -/

theorem step_present_of_decode_ok {w : ReqWord} {i : Instr} (h : decode w = .ok i) (s : State) :
    step (present w s) = exec i (accept w (present w s)) := by
  simp [step, fetch, h]

theorem step_present_of_reserved {w : ReqWord} (h : 9 ≤ w.op.toNat) (s : State) :
    step (present w s) = .next (raiseIllegalOperation w.op (accept w (present w s))) := by
  simp [step, fetch, (decode_eq_error_iff w w.op).mpr ⟨h, rfl⟩]

/-- Settles O39: an assigned OP is answered by its operation, a reserved one by IllegalOperation. -/
theorem stepServesTheRequest : Obligations.StepServesTheRequest := by
  intro w s
  match h : decode w with
  | .ok i =>
    obtain ⟨t, hexec, hresponse⟩ := exec_response i (accept w (present w s))
    refine ⟨t, _, (step_present_of_decode_ok h s).trans hexec, hresponse, ?_⟩
    simp [Response.result, expectedResult, h]
  | .error (.reservedOp op) =>
    obtain ⟨hop, -⟩ := (decode_eq_error_iff w op).mp h
    refine ⟨_, _, step_present_of_reserved hop s, raise_response .., ?_⟩
    simp [Response.result, expectedResult, h]

/-- Settles O4: by O39 the response reads as `expectedResult`, which is the fault exactly for a reserved
OP. -/
theorem onlyReservedOpIsIllegal : Obligations.OnlyReservedOpIsIllegal := by
  intro w s
  obtain ⟨t, r, hstep, hresponse, hresult⟩ := stepServesTheRequest w s
  have hfault := expectedResult_eq_error_iff s.roms w
  rw [← hresult] at hfault
  exact ⟨t, r, hstep, hresponse, r.result_eq_error_iff.symm.trans hfault, hfault.mpr⟩

/-! ### Ignored fields (R64) -/

/-- MULTIPLY reads the low nibble of A and no more of A and B. -/
theorem exec_multiply_congr {a a' : Word} (h : operandNibble a = operandNibble a') (mul : BitVec 2)
    (b b' : Word) (s : State) : exec (.multiply mul a b) s = exec (.multiply mul a' b') s := by
  simp only [exec, execMultiply, h]

/-- Nothing of a reserved request but its OP is seen in what it leaves. -/
theorem raiseIllegalOperation_accept_present (op : BitVec 4) (w w' : ReqWord) (s : State) :
    raiseIllegalOperation op (accept w (present w s)) =
      raiseIllegalOperation op (accept w' (present w' s)) := rfl

/-- Settles O24: the meanings take the ignored fields as arguments that they do not use. -/
theorem ignoredFieldsChangeNothing : Obligations.IgnoredFieldsChangeNothing := by
  refine ⟨fun s mul mul' a a' b b' => ⟨rfl, rfl, rfl, rfl, rfl, rfl, rfl, rfl⟩,
    fun s mul a a' b b' h => exec_multiply_congr h mul b b' s, fun s w w' hw hop => ?_⟩
  rw [step_present_of_reserved hw, step_present_of_reserved (hop ▸ hw), ← hop,
    raiseIllegalOperation_accept_present]

end Sys2Proof.Machine
end

section
/-! The substitution box (41_substitution.md): what an entry of INV_SBOX is, the inverse law of the two
tables that every allowed S-box meets (R94), and SUBNIBBLES and INVSUBNIBBLES (R90 to R93). -/

namespace Sys2Proof.Machine

/-! ### Table entries (R22, R23) -/

/-- Entry `n` of a table made from `f` is `f n`. -/
@[simp] theorem readTable_tabulate (f : Nibble → Nibble) (n : Nibble) :
    readTable (tabulate f) n = f n := by
  have hofFn : tabulate f = Vector.ofFn fun i => f (BitVec.ofFin i) := rfl
  simp [readTable, hofFn, Vector.get_eq_getElem]

theorem mem_allNibbles (n : Nibble) : n ∈ allNibbles := by
  revert n
  decide

/-- The search of R23 finds an index of `v` when the S-box has one. -/
theorem readTable_inverseOf {sbox : Vector Nibble 16} {v : Nibble}
    (h : ∃ n, readTable sbox n = v) : readTable sbox (inverseOf sbox v) = v := by
  obtain ⟨n, hn⟩ := h
  obtain ⟨k, hfind⟩ : ∃ k, allNibbles.find? (fun n => readTable sbox n == v) = some k :=
    Option.isSome_iff_exists.mp
      (List.find?_isSome.mpr ⟨n, mem_allNibbles n, beq_iff_eq.mpr hn⟩)
  have hk : readTable sbox k = v := by simpa using List.find?_some hfind
  rw [inverseOf, hfind, Option.getD_some, hk]

theorem Roms.Wf.sbox_allowed {r : Roms} (h : r.Wf) : SboxAllowed r.sbox := by
  obtain ⟨p, ⟨hsbox, -⟩, rfl⟩ := h
  exact hsbox

theorem Roms.Wf.invSbox_eq {r : Roms} (h : r.Wf) : r.invSbox = tabulate (inverseOf r.sbox) := by
  obtain ⟨p, -, rfl⟩ := h
  rfl

/-! ### The inverse law (R94) -/

/-- Injective on the finite set of nibbles, an allowed S-box has every nibble among its entries, so the
search of R23 succeeds. -/
theorem readTable_sbox_readTable_invSbox {r : Roms} (h : r.Wf) (n : Nibble) :
    readTable r.sbox (readTable r.invSbox n) = n := by
  obtain ⟨hinj, -⟩ := h.sbox_allowed
  have hsurj : Function.Surjective (readTable r.sbox) := Finite.injective_iff_surjective.mp hinj
  rw [h.invSbox_eq, readTable_tabulate]
  exact readTable_inverseOf (hsurj n)

theorem readTable_invSbox_readTable_sbox {r : Roms} (h : r.Wf) (n : Nibble) :
    readTable r.invSbox (readTable r.sbox n) = n := by
  obtain ⟨hinj, -⟩ := h.sbox_allowed
  exact hinj _ _ (readTable_sbox_readTable_invSbox h (readTable r.sbox n))

theorem invSubNibbles_subNibbles {r : Roms} (h : r.Wf) (s : Block) :
    invSubNibbles r (subNibbles r s) = s := by
  simp [invSubNibbles, subNibbles, readTable_invSbox_readTable_sbox h]

theorem subNibbles_invSubNibbles {r : Roms} (h : r.Wf) (s : Block) :
    subNibbles r (invSubNibbles r s) = s := by
  simp [invSubNibbles, subNibbles, readTable_sbox_readTable_invSbox h]

/-- Settles O12: INV_SBOX is a right inverse by its search, so a left one by injectivity; a State is
substituted position by position. -/
theorem substitutionInverseLaw : Obligations.SubstitutionInverseLaw := fun _ h =>
  ⟨fun n => ⟨readTable_invSbox_readTable_sbox h n, readTable_sbox_readTable_invSbox h n⟩,
    fun s => ⟨invSubNibbles_subNibbles h s, subNibbles_invSubNibbles h s⟩⟩

/-! ### SUBNIBBLES and INVSUBNIBBLES (R90 to R93) -/

/-- An operation that only answers leaves the trace, the tables and the request input. -/
theorem completesWith_of_exec_complete {i : Instr} {s : State} {d : Data}
    (hexec : exec i s = .next (complete d s)) : CompletesWith i s d s.trace :=
  ⟨_, hexec, complete_response .., complete_trace .., complete_roms .., complete_request ..⟩

theorem subNibbles_completesWith (mul : BitVec 2) (a b : Word) (s : State) :
    CompletesWith (.subNibbles mul a b) s (blockData (subNibbles s.roms (unpack a))) s.trace :=
  completesWith_of_exec_complete rfl

theorem invSubNibbles_completesWith (mul : BitVec 2) (a b : Word) (s : State) :
    CompletesWith (.invSubNibbles mul a b) s (blockData (invSubNibbles s.roms (unpack a)))
      s.trace :=
  completesWith_of_exec_complete rfl

theorem nibbleAt_subNibbles (r : Roms) (x : Block) (p : Fin 4) :
    nibbleAt (subNibbles r x) p = readTable r.sbox (nibbleAt x p) := by
  match p with
  | 0 | 1 | 2 | 3 => rfl

theorem nibbleAt_invSubNibbles (r : Roms) (x : Block) (p : Fin 4) :
    nibbleAt (invSubNibbles r x) p = readTable r.invSbox (nibbleAt x p) := by
  match p with
  | 0 | 1 | 2 | 3 => rfl

theorem subNibbles_of_equal_positions {r : Roms} {n v : Nibble} (h : readTable r.sbox n = v) :
    subNibbles r ⟨n, n, n, n⟩ = ⟨v, v, v, v⟩ := by
  simp only [subNibbles, h]

theorem blockData_unpack (w : Word) : blockData (unpack w) = w.setWidth 48 := by
  rw [blockData, pack_unpack]

/-- R92: no entry of the default S-box is its own index. -/
theorem defaultSbox_no_fixed_point (n : Nibble) : readTable defaultSbox n ≠ n := by
  revert n
  decide

/-- R93: INVSUBNIBBLES of the result of subNibbles answers the State substituted. -/
theorem invSubNibbles_completesWith_subNibbles {s : State} (h : s.roms.Wf) (x : Block) :
    CompletesWith (.invSubNibbles 0 (pack (subNibbles s.roms x)) 0x0000) s (blockData x) s.trace := by
  have hdone := invSubNibbles_completesWith 0 (pack (subNibbles s.roms x)) 0x0000 s
  rwa [unpack_pack, invSubNibbles_subNibbles h] at hdone

/-- Settles O16; the example follows from entry 0 of SBOX, which is E in every allowed table
(R22). -/
theorem subNibblesSubstitutesEachPosition : Obligations.SubNibblesSubstitutesEachPosition := by
  refine ⟨fun w hop => ?_, subNibbles_completesWith, nibbleAt_subNibbles,
    defaultSbox_no_fixed_point, fun s h => ?_⟩
  · simp [decode, hop]
  · obtain ⟨-, hentry0, -⟩ := h.sbox_allowed
    have hresult : subNibbles s.roms (unpack 0x0000) = unpack 0xEEEE :=
      subNibbles_of_equal_positions hentry0
    have hdone := subNibbles_completesWith 0 0x0000 0x0000 s
    rwa [hresult, blockData_unpack] at hdone

/-- Settles O17; the example is the round trip of 1111, since entry 1 of SBOX is 4 in every allowed
table (R22). -/
theorem invSubNibblesSubstitutesEachPosition :
    Obligations.InvSubNibblesSubstitutesEachPosition := by
  refine ⟨fun w hop => ?_, invSubNibbles_completesWith, nibbleAt_invSubNibbles,
    fun s x h => invSubNibbles_completesWith_subNibbles h x, fun s h => ?_⟩
  · simp [decode, hop]
  · obtain ⟨-, -, hentry1, -⟩ := h.sbox_allowed
    have hresult : subNibbles s.roms (unpack 0x1111) = unpack 0x4444 :=
      subNibbles_of_equal_positions hentry1
    have hdone := invSubNibbles_completesWith_subNibbles h (unpack 0x1111)
    rwa [hresult, pack_unpack, blockData_unpack] at hdone

end Sys2Proof.Machine
end

section
/-! Row shift (42_row_shift.md): SHIFTROWS (R100, R101), and the three maps of States that are their
own inverses (R102, R107, R117). For column mix that rests on the field: `fieldMul` is additive in
each argument, because each pass of the two loops of R25 is. -/

namespace Sys2Proof.Machine

/-! ### fieldMul is additive, for every polynomial (R25) -/

/-- Two loops run side by side add up to a third when their passes do. -/
theorem foldl_xor_of_step {n : Nat} {f g h : BitVec n → Nat → BitVec n}
    (hstep : ∀ p q i, h (p ^^^ q) i = f p i ^^^ g q i) (l : List Nat) (p q : BitVec n) :
    l.foldl h (p ^^^ q) = l.foldl f p ^^^ l.foldl g q := by
  induction l generalizing p q with
  | nil => rfl
  | cons i l ih => simp only [List.foldl_cons, hstep, ih]

/-- A value added to two others leaves their sum. -/
theorem xor_xor_xor_cancel {n : Nat} (p q c : BitVec n) : p ^^^ c ^^^ (q ^^^ c) = p ^^^ q :=
  calc p ^^^ c ^^^ (q ^^^ c) = p ^^^ q ^^^ c ^^^ c := by ac_rfl
    _ = p ^^^ q := xor_cancel_right ..

/-- A pass adds `c` when its bit is set: it is additive in the bit and the value it adds to. -/
theorem ite_xor_add {n : Nat} (b b' : Bool) (c p q : BitVec n) :
    (if b ^^ b' then p ^^^ q ^^^ c else p ^^^ q) =
      (if b then p ^^^ c else p) ^^^ (if b' then q ^^^ c else q) := by
  match b, b' with
  | false, false => rfl
  | false, true => exact BitVec.xor_assoc ..
  | true, false => simp only [Bool.xor_false, if_true, Bool.false_eq_true, if_false]; ac_rfl
  | true, true => exact (xor_xor_xor_cancel p q c).symm

/-- The first loop of R25: the carry-less product, before reduction. -/
def carrylessProduct (m v : Nibble) : BitVec 7 :=
  [0, 1, 2, 3].foldl (fun p i => if m.getLsbD i then p ^^^ (v.setWidth 7 <<< i) else p) 0

/-- The second loop of R25: the reduction from bit 6 down to bit 4. -/
def reduceProduct (poly : BitVec 5) (product : BitVec 7) : BitVec 7 :=
  [6, 5, 4].foldl (fun p i => if p.getLsbD i then p ^^^ (poly.setWidth 7 <<< (i - 4)) else p)
    product

theorem fieldMul_eq (poly : BitVec 5) (m v : Nibble) :
    fieldMul poly m v = (reduceProduct poly (carrylessProduct m v)).extractLsb' 0 4 := rfl

theorem carrylessProduct_xor_left (m n v : Nibble) :
    carrylessProduct (m ^^^ n) v = carrylessProduct m v ^^^ carrylessProduct n v := by
  refine foldl_xor_of_step (fun p q i => ?_) [0, 1, 2, 3] 0 0
  rw [BitVec.getLsbD_xor, ite_xor_add]

theorem carrylessProduct_xor_right (m u v : Nibble) :
    carrylessProduct m (u ^^^ v) = carrylessProduct m u ^^^ carrylessProduct m v := by
  refine foldl_xor_of_step (fun p q i => ?_) [0, 1, 2, 3] 0 0
  split
  · rw [BitVec.setWidth_xor, BitVec.shiftLeft_xor_distrib]
    ac_rfl
  · rfl

theorem reduceProduct_xor (poly : BitVec 5) (p q : BitVec 7) :
    reduceProduct poly (p ^^^ q) = reduceProduct poly p ^^^ reduceProduct poly q := by
  refine foldl_xor_of_step (fun p q i => ?_) [6, 5, 4] p q
  rw [BitVec.getLsbD_xor, ite_xor_add]

theorem fieldMul_xor_left (poly : BitVec 5) (m n v : Nibble) :
    fieldMul poly (m ^^^ n) v = fieldMul poly m v ^^^ fieldMul poly n v := by
  simp only [fieldMul_eq, carrylessProduct_xor_left, reduceProduct_xor, BitVec.extractLsb'_xor]

theorem fieldMul_xor_right (poly : BitVec 5) (m u v : Nibble) :
    fieldMul poly m (u ^^^ v) = fieldMul poly m u ^^^ fieldMul poly m v := by
  simp only [fieldMul_eq, carrylessProduct_xor_right, reduceProduct_xor, BitVec.extractLsb'_xor]

theorem fieldMul_one (poly : BitVec 5) (v : Nibble) : fieldMul poly 1 v = v := by
  have hproduct : carrylessProduct 1 v = v.setWidth 7 := by simp [carrylessProduct]
  have hreduced : reduceProduct poly (v.setWidth 7) = v.setWidth 7 := by simp [reduceProduct]
  rw [fieldMul_eq, hproduct, hreduced, BitVec.extractLsb'_setWidth_of_le (by decide),
    BitVec.extractLsb'_eq_self]

/-! ### gfMul over tables made from parameters (R24, R81) -/

/-- Row `m` of GF_MUL holds the products by `m`. -/
theorem gfMul_ofParams (p : Config.Params) (m : BitVec 2) (v : Nibble) :
    gfMul (Roms.ofParams p) m v = fieldMul p.gfPoly (m.setWidth 4) v := by
  match m with
  | 0 | 1 | 2 | 3 => exact readTable_tabulate ..

theorem gfMul_xor {r : Roms} (h : r.Wf) (m : BitVec 2) (u v : Nibble) :
    gfMul r m (u ^^^ v) = gfMul r m u ^^^ gfMul r m v := by
  obtain ⟨p, -, rfl⟩ := h
  simp only [gfMul_ofParams, fieldMul_xor_right]

theorem gfMul_three {r : Roms} (h : r.Wf) (v : Nibble) : gfMul r 3 v = gfMul r 2 v ^^^ v := by
  obtain ⟨p, -, rfl⟩ := h
  calc gfMul (Roms.ofParams p) 3 v = fieldMul p.gfPoly (2 ^^^ 1) v := gfMul_ofParams p 3 v
    _ = fieldMul p.gfPoly 2 v ^^^ v := by rw [fieldMul_xor_left, fieldMul_one]
    _ = gfMul (Roms.ofParams p) 2 v ^^^ v := by rw [gfMul_ofParams]; rfl

/-! ### The three involutions (R102, R107, R117) -/

@[simp] theorem shiftRows_shiftRows (s : Block) : shiftRows (shiftRows s) = s := rfl

/-- Column mix adds one nibble to both of a column, twice their sum. -/
theorem mixCol_eq_add {r : Roms} (h : r.Wf) (a b : Nibble) :
    mixCol r a b = (a ^^^ gfMul r 2 (a ^^^ b), b ^^^ gfMul r 2 (a ^^^ b)) := by
  simp only [mixCol, gfMul_three h, gfMul_xor h]
  refine Prod.ext ?_ ?_ <;> ac_rfl

/-- The nibble added to both leaves their sum, so mixing again adds the same nibble. -/
theorem mixCol_mixCol {r : Roms} (h : r.Wf) (a b : Nibble) :
    mixCol r (mixCol r a b).1 (mixCol r a b).2 = (a, b) := by
  simp only [mixCol_eq_add h, xor_xor_xor_cancel, xor_cancel_right]

theorem mixColumns_mixColumns {r : Roms} (h : r.Wf) (s : Block) :
    mixColumns r (mixColumns r s) = s := by
  simp only [mixColumns, mixCol_mixCol h]

@[simp] theorem addRoundKey_addRoundKey (s k : Block) : addRoundKey (addRoundKey s k) k = s := by
  simp only [addRoundKey, xor_cancel_right]

/-- Settles O13: a swap, a column mix that adds the same nibbles twice (`mixCol_mixCol`), and an
exclusive-or. -/
theorem rowShiftColumnMixKeyMixAreInvolutions : Obligations.RowShiftColumnMixKeyMixAreInvolutions :=
  fun _ s k h => ⟨shiftRows_shiftRows s, mixColumns_mixColumns h s, addRoundKey_addRoundKey s k⟩

/-! ### SHIFTROWS (R100, R101) -/

theorem shiftRows_completesWith (mul : BitVec 2) (a b : Word) (s : State) :
    CompletesWith (.shiftRows mul a b) s (blockData (shiftRows (unpack a))) s.trace :=
  completesWith_of_exec_complete rfl

/-- In the matrix, row 0 stays and the two nibbles of row 1 change places (R44). -/
theorem matrixEntry_shiftRows (x : Block) (column : Fin 2) :
    matrixEntry (shiftRows x) 0 column = matrixEntry x 0 column ∧
    matrixEntry (shiftRows x) 1 column = matrixEntry x 1 (1 - column) := by
  match column with
  | 0 | 1 => exact ⟨rfl, rfl⟩

theorem shiftRows_eq_self {x : Block} (h : x.s1 = x.s3) : shiftRows x = x :=
  Block.ext rfl h.symm rfl h

/-- Settles O18; the example's State 0123 shifted is 0321. -/
theorem shiftRowsSwapsPositionsOneAndThree : Obligations.ShiftRowsSwapsPositionsOneAndThree := by
  refine ⟨fun w hop => ?_, shiftRows_completesWith, fun _ => ⟨rfl, rfl, rfl, rfl⟩,
    matrixEntry_shiftRows, fun _ => shiftRows_eq_self, fun s => ?_⟩
  · simp [decode, hop]
  · have hresult : shiftRows (unpack 0x0123) = unpack 0x0321 := by decide
    have hdone := shiftRows_completesWith 0 0x0123 0x0000 s
    rwa [hresult, blockData_unpack] at hdone

end Sys2Proof.Machine
end

section
/-! Column mix (43_column_mix.md): MIXCOLUMNS (R105, R106). Its fixed points follow from row 3 of GF_MUL
being row 2 plus the operand (`gfMul_three`); its independence of GF_POLY on nibbles below 8, from the
reduction of R25 having nothing to reduce there. -/

namespace Sys2Proof.Machine

/-! ### Products that need no reduction (R25, R83) -/

/-- The reduction leaves a product of degree below 4 as it is, whatever the polynomial. -/
theorem reduceProduct_of_lt {product : BitVec 7} (h : product.toNat < 16) (poly : BitVec 5) :
    reduceProduct poly product = product := by
  have hhigh (i : Nat) (hi : 4 ≤ i) : product.getLsbD i = false :=
    Nat.testBit_lt_two_pow (h.trans_le (Nat.pow_le_pow_right (n := 2) (by decide) hi))
  simp only [reduceProduct, List.foldl_cons, List.foldl_nil, hhigh 6 (by decide),
    hhigh 5 (by decide), hhigh 4 (by decide), Bool.false_eq_true, if_false]

/-- A multiplier of degree at most 1 times a nibble of degree at most 2 has degree below 4. -/
theorem carrylessProduct_lt (m : BitVec 2) {v : Nibble} (h : v.toNat < 8) :
    (carrylessProduct (m.setWidth 4) v).toNat < 16 := by
  revert m v
  decide

theorem gfMul_ofParams_of_lt (p : Config.Params) (m : BitVec 2) {v : Nibble} (h : v.toNat < 8) :
    gfMul (Roms.ofParams p) m v = (carrylessProduct (m.setWidth 4) v).extractLsb' 0 4 := by
  rw [gfMul_ofParams, fieldMul_eq, reduceProduct_of_lt (carrylessProduct_lt m h)]

theorem gfMul_ofParams_congr_of_lt (p q : Config.Params) (m : BitVec 2) {v : Nibble}
    (h : v.toNat < 8) : gfMul (Roms.ofParams p) m v = gfMul (Roms.ofParams q) m v :=
  (gfMul_ofParams_of_lt p m h).trans (gfMul_ofParams_of_lt q m h).symm

/-- On nibbles below 8, column mix is one function for all polynomials (R106). -/
theorem mixColumns_ofParams_congr (p q : Config.Params) {x : Block}
    (h : ∀ k : Fin 4, (nibbleAt x k).toNat < 8) :
    mixColumns (Roms.ofParams p) x = mixColumns (Roms.ofParams q) x := by
  have hgf (m : BitVec 2) (k : Fin 4) := gfMul_ofParams_congr_of_lt p q m (h k)
  exact Block.ext (congrArg₂ (· ^^^ ·) (hgf 3 0) (hgf 2 1)) (congrArg₂ (· ^^^ ·) (hgf 2 0) (hgf 3 1))
    (congrArg₂ (· ^^^ ·) (hgf 3 2) (hgf 2 3)) (congrArg₂ (· ^^^ ·) (hgf 2 2) (hgf 3 3))

/-! ### Columns of equal nibbles (R108) -/

theorem mixCol_self {r : Roms} (h : r.Wf) (c : Nibble) : mixCol r c c = (c, c) := by
  have hsum : gfMul r 2 c ^^^ gfMul r 3 c = c := by
    rw [gfMul_three h, ← BitVec.xor_assoc, BitVec.xor_self, BitVec.zero_xor]
  simp only [mixCol, BitVec.xor_comm (gfMul r 3 c), hsum]

theorem mixColumns_of_equal_nibbles {r : Roms} (h : r.Wf) (a b : Nibble) :
    mixColumns r ⟨a, a, b, b⟩ = ⟨a, a, b, b⟩ := by
  simp only [mixColumns, mixCol_self h]

/-! ### MIXCOLUMNS (R106) -/

theorem mixColumns_completesWith (mul : BitVec 2) (a b : Word) (s : State) :
    CompletesWith (.mixColumns mul a b) s (blockData (mixColumns s.roms (unpack a))) s.trace :=
  completesWith_of_exec_complete rfl

/-- The example of R106: no nibble of 1000 reaches 8, so the default tables speak for all. -/
theorem mixColumns_unpack_1000 {r : Roms} (h : r.Wf) :
    mixColumns r (unpack 0x1000) = unpack 0x3200 := by
  obtain ⟨p, -, rfl⟩ := h
  calc mixColumns (Roms.ofParams p) (unpack 0x1000)
      = mixColumns (Roms.ofParams defaultParams) (unpack 0x1000) :=
        mixColumns_ofParams_congr p defaultParams (by decide)
    _ = unpack 0x3200 := by decide

/-- Settles O19: the formulas are those of `mixCol`, 0000 is two columns of equal nibbles, and products
of nibbles below 8 need no reduction. -/
theorem mixColumnsMultipliesEachColumn : Obligations.MixColumnsMultipliesEachColumn := by
  refine ⟨fun w hop => ?_, mixColumns_completesWith, fun _ _ => rfl,
    fun _ h => mixColumns_of_equal_nibbles h 0 0, fun _ c h => mixCol_self h c,
    fun p q _ _ _ hlt => mixColumns_ofParams_congr p q hlt, fun s h => ?_⟩
  · simp [decode, hop]
  · have hdone := mixColumns_completesWith 0 0x1000 0x0000 s
    rwa [mixColumns_unpack_1000 h, blockData_unpack] at hdone

end Sys2Proof.Machine
end

section
/-! Key schedule (45_key_schedule.md): EXPANDKEY (R121). A round reads SBOX once, at the last word of the
round key before it, so the two entries read fix the round keys. For key 0000 they are entries 0 and F,
equal in all allowed tables (R22), so the default tables speak for every one. -/

namespace Sys2Proof.Machine

/-! ### The two entries that the round keys depend on (R120, R121) -/

/-- The entry at the last word is all that a round reads of the tables. -/
theorem nextRoundKey_congr {r r' : Roms} {k : Block}
    (h : readTable r.sbox k.s3 = readTable r'.sbox k.s3) (rc : Nibble) :
    nextRoundKey r rc k = nextRoundKey r' rc k := by
  simp only [nextRoundKey, h]

/-- Agreeing at the first entry gives both tables one RK1, whose last word is where the second entry is
read. -/
theorem expandKey_congr {r r' : Roms} {key : Key}
    (hfirst : readTable r.sbox key.s3 = readTable r'.sbox key.s3)
    (hsecond : readTable r.sbox (expandKey r key).rk1.s3 =
      readTable r'.sbox (expandKey r key).rk1.s3) :
    expandKey r key = expandKey r' key := by
  have hrk1 : (expandKey r key).rk1 = (expandKey r' key).rk1 := nextRoundKey_congr hfirst (rcon 0)
  have hrk2 : (expandKey r key).rk2 = (expandKey r' key).rk2 :=
    calc (expandKey r key).rk2
        = nextRoundKey r' (rcon 1) (expandKey r key).rk1 := nextRoundKey_congr hsecond (rcon 1)
      _ = (expandKey r' key).rk2 := congrArg (nextRoundKey r' (rcon 1)) hrk1
  exact RoundKeys.ext rfl hrk1 hrk2

/-! ### The source's vector (R122) -/

theorem expandKey_unpack_0000 {r : Roms} (h : r.Wf) :
    expandKey r (unpack 0x0000) = ⟨unpack 0x0000, unpack 0xFFFF, unpack 0xA5A5⟩ := by
  obtain ⟨-, hentry0, -, hentryF⟩ := h.sbox_allowed
  have hdefault : expandKey (Roms.ofParams defaultParams) (unpack 0x0000) =
      ⟨unpack 0x0000, unpack 0xFFFF, unpack 0xA5A5⟩ := by decide
  have hsame : expandKey (Roms.ofParams defaultParams) (unpack 0x0000) =
      expandKey r (unpack 0x0000) := by
    apply expandKey_congr
    · exact hentry0.symm
    · rw [hdefault]
      exact hentryF.symm
  exact hsame.symm.trans hdefault

/-! ### EXPANDKEY (R121) -/

/-- Settles O21: RK0 is the key by definition, and the example is the source's vector placed in
DATA. -/
theorem expandKeyAnswersTheRoundKeys : Obligations.ExpandKeyAnswersTheRoundKeys := by
  refine ⟨fun w hop => ?_, expandKey_completesWith, fun _ _ => rfl, fun _ _ _ => expandKey_congr,
    fun s h => ?_⟩
  · simp [decode, hop]
  · have hdata : roundKeysData ⟨unpack 0x0000, unpack 0xFFFF, unpack 0xA5A5⟩ = 0x0000FFFFA5A5 := by
      decide
    have hdone := expandKey_completesWith 0 0x0000 0x0000 s
    rwa [expandKey_unpack_0000 h, hdata] at hdone

end Sys2Proof.Machine
end

section
/-! Cipher pipelines (46_cipher_pipelines.md): the eight steps of `decrypt` undo the eight of `encrypt` in
reverse order, each by its own inverse law, so ENCRYPT under a fixed key is a bijection (R139). -/

namespace Sys2Proof.Machine

/-- The two rounds of R130 written out are the eight steps of R132. -/
theorem encrypt_eq (r : Roms) (p key : Block) :
    encrypt r p key =
      addRoundKey (shiftRows (subNibbles r
        (addRoundKey (mixColumns r (shiftRows (subNibbles r
          (addRoundKey p (expandKey r key).rk0)))) (expandKey r key).rk1)))
        (expandKey r key).rk2 := rfl

/-- The lines of R134, nested. -/
theorem decrypt_eq (r : Roms) (c key : Block) :
    decrypt r c key =
      addRoundKey (invSubNibbles r (shiftRows (mixColumns r
        (addRoundKey (invSubNibbles r (shiftRows
          (addRoundKey c (expandKey r key).rk2))) (expandKey r key).rk1))))
        (expandKey r key).rk0 := rfl

/-- Each step of `decrypt` meets the step of `encrypt` that it undoes, the last one first. -/
theorem decrypt_encrypt {r : Roms} (h : r.Wf) (p key : Block) :
    decrypt r (encrypt r p key) key = p := by
  simp only [encrypt_eq, decrypt_eq, addRoundKey_addRoundKey, shiftRows_shiftRows,
    invSubNibbles_subNibbles h, mixColumns_mixColumns h]

theorem encrypt_decrypt {r : Roms} (h : r.Wf) (c key : Block) :
    encrypt r (decrypt r c key) key = c := by
  simp only [encrypt_eq, decrypt_eq, addRoundKey_addRoundKey, shiftRows_shiftRows,
    subNibbles_invSubNibbles h, mixColumns_mixColumns h]

/-- Settles O34: `decrypt` under the same key is a two-sided inverse. -/
theorem encryptIsABijection : Obligations.EncryptIsABijection :=
  fun r key h => Function.bijective_iff_has_inverse.mpr
    ⟨fun c => decrypt r c key, fun p => decrypt_encrypt h p key, fun c => encrypt_decrypt h c key⟩

end Sys2Proof.Machine
end

section
/-! Exceptions (60_exceptions.md): an assigned OP always completes (R151), and IllegalOperation leaves the
tables, an idle port and nothing of the request but the response (R152). -/

namespace Sys2Proof.Machine

/-! ### Assigned operations (R151) -/

/-- The decoder accepts every assigned OP: it refuses nothing but the reserved ones. -/
theorem exists_decode_eq_ok {w : ReqWord} (h : w.op.toNat ≤ 8) : ∃ i, decode w = .ok i := by
  match hdecode : decode w with
  | .ok i => exact ⟨i, rfl⟩
  | .error (.reservedOp op) =>
    obtain ⟨hreserved, -⟩ := (decode_eq_error_iff w op).mp hdecode
    omega

/-- Settles O40: the request decodes, and every meaning completes with its result. -/
theorem assignedOperationsNeverFail : Obligations.AssignedOperationsNeverFail := by
  intro s op mul a b hop
  obtain ⟨i, hdecode⟩ := exists_decode_eq_ok (w := ReqWord.ofFields op mul a b)
    (by rwa [ReqWord.op_ofFields])
  obtain ⟨t, hexec, hresponse⟩ := exec_response i (accept _ (present (ReqWord.ofFields op mul a b) s))
  exact ⟨i, t, hdecode, (step_present_of_decode_ok hdecode s).trans hexec, hresponse⟩

/-! ### IllegalOperation (R152) -/

/-- OP reaches nothing that IllegalOperation leaves but the response. -/
theorem raiseIllegalOperation_with_response (op op' : BitVec 4) (s : State) :
    { raiseIllegalOperation op' s with response := (raiseIllegalOperation op s).response } =
      raiseIllegalOperation op s := rfl

/-- Settles O41: the step is `raiseIllegalOperation`, which keeps the tables and discards the rest of the
transaction; by O39 the core then serves any request by those same tables. -/
theorem reservedOpRaisesIllegalOperation : Obligations.ReservedOpRaisesIllegalOperation := by
  intro w s hw
  refine ⟨_, _, step_present_of_reserved hw s, raise_response .., rfl,
    (Response.result_eq_error_iff _).mpr rfl, by simp, by simp, fun w' hw' => ?_, fun w' => ?_⟩
  · refine ⟨_, step_present_of_reserved hw' s, ?_⟩
    rw [raiseIllegalOperation_accept_present w'.op w' w, raiseIllegalOperation_with_response]
  · simpa using stepServesTheRequest w' (raiseIllegalOperation w.op (accept w (present w s)))

end Sys2Proof.Machine
end

section
/-! Reset and the host's protocol (70_reset_and_hazards.md): no step writes the tables (R177), and each
request gives one response, in order, that depends on it alone (R174). Both rest on what every step leaves:
the same tables and an idle port. -/

namespace Sys2Proof.Machine

/-! ### What every step leaves (R49, R177) -/

/-- Idle, operation or IllegalOperation: a step keeps the tables and leaves no request at the port. -/
theorem step_keeps_roms_and_idles (s : State) :
    ∃ t : State, step s = .next t ∧ t.roms = s.roms ∧ t.request = none := by
  obtain ⟨hidle, hstep⟩ | ⟨w, i, -, -, hstep⟩ | ⟨w, op, -, -, hstep⟩ := step_cases s
  · exact ⟨s, hstep, rfl, hidle⟩
  · obtain ⟨d, s', hexec, hroms, hrequest, -⟩ := exec_completes i (accept w s)
    exact ⟨complete d s', hstep.trans hexec, by simp [hroms], by simp [hrequest]⟩
  · exact ⟨_, hstep, by simp, by simp⟩

/-- Settles O42: a step keeps the tables in each of its cases, and a reset does not touch them. -/
theorem nothingWritesTheTables : Obligations.NothingWritesTheTables := by
  intro s
  obtain ⟨t, hstep, hroms, -⟩ := step_keeps_roms_and_idles s
  exact ⟨⟨t, hstep, hroms⟩, assertReset_roms s⟩

/-! ### Transactions of the host (R174) -/

/-- From an idle state the host sends, the core steps, and the host takes the response. -/
theorem transact_of_step {w : ReqWord} {s t : State} {r : Response} (hidle : s.request = none)
    (hstep : step (present w s) = .next t) (hresponse : t.response = some r) :
    transact w s = some (r, { t with response := none }) := by
  simp only [transact, send_eq_some.mpr ⟨hidle, rfl⟩, hstep, takeResponse_eq_some.mpr ⟨hresponse, rfl⟩]

/-- A transaction answers what the request and the tables fix, and leaves those tables and an idle
core. -/
theorem transact_answers (w : ReqWord) {s : State} (hidle : s.request = none) :
    ∃ (r : Response) (t : State), transact w s = some (r, t) ∧
      r.result = expectedResult s.roms w ∧ t.request = none ∧ t.roms = s.roms := by
  obtain ⟨t, r, hstep, hresponse, hresult⟩ := stepServesTheRequest w s
  obtain ⟨t', hstep', hroms, hrequest⟩ := step_keeps_roms_and_idles (present w s)
  obtain rfl : t = t' := Host.Outcome.next.inj (hstep.symm.trans hstep')
  exact ⟨r, _, transact_of_step hidle hstep hresponse, hresult, hrequest, hroms⟩

theorem transactAll_cons {w : ReqWord} {ws : List ReqWord} {s s1 s2 : State} {r : Response}
    {rs : List Response} (hfirst : transact w s = some (r, s1))
    (hrest : transactAll ws s1 = some (rs, s2)) : transactAll (w :: ws) s = some (r :: rs, s2) := by
  simp only [transactAll, hfirst, hrest]

/-- Settles O48, by induction on the requests: each transaction leaves an idle core with the tables that
the rest of the requests start from. -/
theorem responsesComeInRequestOrder : Obligations.ResponsesComeInRequestOrder := by
  intro ws
  induction ws with
  | nil => exact fun s hidle => ⟨[], s, rfl, rfl, hidle, rfl⟩
  | cons w ws ih =>
    intro s hidle
    obtain ⟨r, s1, hfirst, hresult, hidle1, hroms1⟩ := transact_answers w hidle
    obtain ⟨rs, s2, hrest, hresults, hidle2, hroms2⟩ := ih s1 hidle1
    refine ⟨r :: rs, s2, transactAll_cons hfirst hrest, ?_, hidle2, hroms2.trans hroms1⟩
    simp only [List.map_cons, hresult, hresults, hroms1]

end Sys2Proof.Machine
end

section
/-! Requests written and read back (30_encoding.md): the fields of a request word and the number that they
make (R60), the decoder and the encoder as inverses on the words with an assigned OP (R62), and the
assembler forms (R69, R70). -/

namespace Sys2Proof

/-! ### Fields (R60) -/

@[simp] theorem ReqWord.mul_ofFields (op : BitVec 4) (mul : BitVec 2) (a b : Word) :
    (ReqWord.ofFields op mul a b).mul = mul := by
  rw [ReqWord.mul, ReqWord.ofFields, BitVec.extractLsb'_append_eq_of_le (by decide),
    BitVec.extractLsb'_append_eq_of_le (by decide)]
  exact BitVec.extractLsb'_append_eq_right

@[simp] theorem ReqWord.a_ofFields (op : BitVec 4) (mul : BitVec 2) (a b : Word) :
    (ReqWord.ofFields op mul a b).a = a := by
  rw [ReqWord.a, ReqWord.ofFields, BitVec.extractLsb'_append_eq_of_le (by decide)]
  exact BitVec.extractLsb'_append_eq_right

@[simp] theorem ReqWord.b_ofFields (op : BitVec 4) (mul : BitVec 2) (a b : Word) :
    (ReqWord.ofFields op mul a b).b = b :=
  BitVec.extractLsb'_append_eq_right

/-- Appending on the right shifts the number on the left past it. -/
theorem toNat_append_eq_add {k n : Nat} (x : BitVec k) (y : BitVec n) :
    (x ++ y).toNat = x.toNat * 2 ^ n + y.toNat := by
  rw [BitVec.toNat_append, ← Nat.shiftLeft_add_eq_or_of_lt y.isLt, Nat.shiftLeft_eq]

theorem ReqWord.toNat_ofFields (op : BitVec 4) (mul : BitVec 2) (a b : Word) :
    (ReqWord.ofFields op mul a b).toNat =
      op.toNat * 2 ^ 34 + mul.toNat * 2 ^ 32 + a.toNat * 2 ^ 16 + b.toNat := by
  simp only [ReqWord.ofFields, toNat_append_eq_add]
  omega

/-- The four fields are the whole word. -/
theorem ReqWord.ofFields_fields (w : ReqWord) : ReqWord.ofFields w.op w.mul w.a w.b = w := by
  apply BitVec.eq_of_toNat_eq
  have hw := w.isLt
  simp only [ReqWord.toNat_ofFields, ReqWord.op, ReqWord.mul, ReqWord.a, ReqWord.b,
    BitVec.extractLsb'_toNat, Nat.shiftRight_eq_div_pow]
  omega

/-- Settles O1: the fields are consecutive parts of one word, and its number has them as digits. -/
theorem requestFieldsReadBack : Obligations.RequestFieldsReadBack := fun op mul a b =>
  ⟨ReqWord.op_ofFields op mul a b, ReqWord.mul_ofFields op mul a b, ReqWord.a_ofFields op mul a b,
    ReqWord.b_ofFields op mul a b, ReqWord.toNat_ofFields op mul a b⟩

/-! ### The decoder and the encoder (R62, R68) -/

/-- The OP in the encoded word is the one of the operation's row. -/
theorem op_encode (i : Instr) : (encode i).op = i.opcode := by
  cases i <;> exact ReqWord.op_ofFields ..

@[simp] theorem decode_encode (i : Instr) : decode (encode i) = .ok i := by
  cases i <;> simp [decode, encode, ReqWord.op_ofFields]

/-- Settles O2: the encoder writes the fields that the decoder reads, under the OP it selects by. -/
theorem decodeOfEncodeIsTheInstruction : Obligations.DecodeOfEncodeIsTheInstruction := decode_encode

/-- A word is made of any value of its OP and its other three fields. -/
theorem ReqWord.ofFields_of_op {w : ReqWord} {op : BitVec 4} (h : w.op.toNat = op.toNat) :
    ReqWord.ofFields op w.mul w.a w.b = w := by
  rw [← BitVec.eq_of_toNat_eq h, ReqWord.ofFields_fields]

theorem encode_of_decode_ok {w : ReqWord} {i : Instr} (h : decode w = .ok i) : encode i = w := by
  unfold decode at h
  split at h
  case h_10 => cases h
  all_goals
    next hop =>
      cases h
      exact ReqWord.ofFields_of_op hop

/-- The instruction that a word decodes to has the word's OP. -/
theorem opcode_of_decode_ok {w : ReqWord} {i : Instr} (h : decode w = .ok i) : i.opcode = w.op := by
  rw [← encode_of_decode_ok h, op_encode]

/-- Settles O3: all four fields of the word come back, and the OP with them. -/
theorem encodeOfDecodeIsTheWord : Obligations.EncodeOfDecodeIsTheWord := fun _ _ h =>
  ⟨encode_of_decode_ok h, opcode_of_decode_ok h⟩

/-- Settles O5: ten closed words, each evaluated by the decoder. -/
theorem writtenWordsDecode : Obligations.WrittenWordsDecode := by
  refine ⟨?_, ?_, ?_, ?_, ?_, ?_, ?_, ?_, ?_, ?_⟩ <;> decide

end Sys2Proof

namespace Sys2Proof.Machine

/-! ### Assembler forms (R69, R70) -/

/-- Every form but a raw word is the encoding of an instruction whose ignored fields are 0. -/
theorem assemble_eq_encode_canonical {form : AsmForm Word}
    (h : ∀ op mul a b, form ≠ .raw op mul a b) :
    ∃ i : Instr, assemble form = encode i ∧ i.canonical = true := by
  cases form with
  | raw op mul a b => exact absurd rfl (h op mul a b)
  | multiply m v =>
    exact ⟨.multiply m (v.setWidth 16) 0, rfl, by simp [Instr.canonical, extractLsb'_setWidth_above]⟩
  | encrypt | decrypt | expandKey | subNibbles | invSubNibbles | shiftRows | mixColumns
  | addRoundKey | invShiftRows | invMixColumns =>
    refine ⟨_, by rw [assemble], ?_⟩
    rfl

/-- Settles O6: each form is the encoding of its instruction, which decodes to itself. -/
theorem assembledFormsDecode : Obligations.AssembledFormsDecode := by
  refine ⟨fun a b m v => ?_, fun form i hraw hdecode => ?_⟩
  · simp only [assemble, decode_encode, and_self]
  · obtain ⟨j, hassemble, hcanonical⟩ := assemble_eq_encode_canonical hraw
    rw [hassemble, decode_encode] at hdecode
    cases hdecode
    exact hcanonical

end Sys2Proof.Machine
end

section
/-! Field arithmetic (40_field_arithmetic.md, R25): with bit i the coefficient of x^i, the first loop of
`fieldMul` computes the product of polynomials over GF(2), and each pass of the second changes it by a
multiple of GF_POLY. -/

namespace Sys2Proof.Machine

open Polynomial

/-! ### The bits of a word as a polynomial over GF(2) (R25) -/

theorem coeff_bitPolynomial {n : Nat} (x : BitVec n) (j : Nat) :
    (bitPolynomial x).coeff j = if x.getLsbD j then 1 else 0 := by
  have hterm (i : Nat) : (if x.getLsbD i then (X : (ZMod 2)[X]) ^ i else 0).coeff j =
      if j = i then (if x.getLsbD i then 1 else 0) else 0 := by
    rw [apply_ite (coeff · j), coeff_X_pow, coeff_zero]
    split_ifs <;> rfl
  simp only [bitPolynomial, finsetSum_coeff, hterm, Finset.sum_ite_eq, Finset.mem_range]
  split_ifs with hlt hbit hbit
  · rfl
  · rfl
  · exact absurd (BitVec.lt_of_getLsbD hbit) hlt
  · rfl

@[simp] theorem bitPolynomial_zero (n : Nat) : bitPolynomial (0 : BitVec n) = 0 := by
  simp [bitPolynomial]

/-- Exclusive-or of words is addition of polynomials. -/
theorem bitPolynomial_xor {n : Nat} (x y : BitVec n) :
    bitPolynomial (x ^^^ y) = bitPolynomial x + bitPolynomial y := by
  ext j
  simp only [coeff_bitPolynomial, coeff_add, BitVec.getLsbD_xor]
  match x.getLsbD j, y.getLsbD j with
  | false, false | false, true | true, false => simp
  | true, true => exact (CharTwo.add_self_eq_zero 1).symm

/-- Shifting left by `i`, at a width that keeps every bit, is multiplying by x^i. -/
theorem bitPolynomial_setWidth_shiftLeft {n k i : Nat} (x : BitVec n) (h : n + i ≤ k) :
    bitPolynomial (x.setWidth k <<< i) = X ^ i * bitPolynomial x := by
  ext j
  simp only [coeff_bitPolynomial, coeff_X_pow_mul', BitVec.getLsbD_shiftLeft, BitVec.getLsbD_setWidth]
  have hout (hj : k ≤ j) : x.getLsbD (j - i) = false := BitVec.getLsbD_of_ge x _ (by omega)
  grind

/-- Dropping high bits that are 0 keeps the polynomial. -/
theorem bitPolynomial_extractLsb' {n k : Nat} (x : BitVec n)
    (h : ∀ i, k ≤ i → x.getLsbD i = false) : bitPolynomial (x.extractLsb' 0 k) = bitPolynomial x := by
  ext j
  simp only [coeff_bitPolynomial, BitVec.getLsbD_extractLsb', Nat.zero_add]
  grind

/-! ### fieldMul is the product modulo GF_POLY (R25) -/

/-- The first loop adds x^i times `v` for each coefficient i of `m`. -/
theorem bitPolynomial_carrylessProduct (m v : Nibble) :
    bitPolynomial (carrylessProduct m v) = bitPolynomial m * bitPolynomial v := by
  have hpass (p : BitVec 7) {i : Nat} (hi : i < 4) :
      bitPolynomial (if m.getLsbD i then p ^^^ (v.setWidth 7 <<< i) else p) =
        bitPolynomial p + (if m.getLsbD i then X ^ i else 0) * bitPolynomial v := by
    split_ifs
    · rw [bitPolynomial_xor, bitPolynomial_setWidth_shiftLeft v (by omega)]
    · rw [zero_mul, add_zero]
  simp only [carrylessProduct, List.foldl_cons, List.foldl_nil, hpass _ (show 3 < 4 by decide),
    hpass _ (show 2 < 4 by decide), hpass _ (show 1 < 4 by decide), hpass _ (show 0 < 4 by decide)]
  have hm : bitPolynomial m = (if m.getLsbD 0 then X ^ 0 else 0) + (if m.getLsbD 1 then X ^ 1 else 0) +
      (if m.getLsbD 2 then X ^ 2 else 0) + (if m.getLsbD 3 then X ^ 3 else 0) := by
    simp only [bitPolynomial, Finset.sum_range_succ, Finset.sum_range_zero, zero_add]
  rw [hm, bitPolynomial_zero]
  ring

/-- One pass of the reduction: GF_POLY times x^(i-4) is added where bit i is set. -/
def reducePass (poly : BitVec 5) (p : BitVec 7) (i : Nat) : BitVec 7 :=
  if p.getLsbD i then p ^^^ (poly.setWidth 7 <<< (i - 4)) else p

theorem reduceProduct_eq (poly : BitVec 5) (p : BitVec 7) :
    reduceProduct poly p = reducePass poly (reducePass poly (reducePass poly p 6) 5) 4 := rfl

/-- A pass changes its operand by a multiple of GF_POLY. -/
theorem dvd_sub_reducePass (poly : BitVec 5) (p : BitVec 7) {i : Nat} (h : i < 7) :
    bitPolynomial poly ∣ bitPolynomial p - bitPolynomial (reducePass poly p i) := by
  unfold reducePass
  split_ifs
  · rw [bitPolynomial_xor, bitPolynomial_setWidth_shiftLeft poly (by omega), sub_add_cancel_left,
      dvd_neg]
    exact dvd_mul_left ..
  · rw [sub_self]
    exact dvd_zero _

theorem dvd_sub_reduceProduct (poly : BitVec 5) (p : BitVec 7) :
    bitPolynomial poly ∣ bitPolynomial p - bitPolynomial (reduceProduct poly p) := by
  have h6 := dvd_sub_reducePass poly p (i := 6) (by decide)
  have h5 := dvd_sub_reducePass poly (reducePass poly p 6) (i := 5) (by decide)
  have h4 := dvd_sub_reducePass poly (reducePass poly (reducePass poly p 6) 5) (i := 4) (by decide)
  simpa [reduceProduct_eq] using dvd_add (dvd_add h6 h5) h4

/-- Pass i clears bit i, because GF_POLY has degree 4. -/
theorem getLsbD_reducePass_self {poly : BitVec 5} (hdegree : poly.getLsbD 4 = true) (p : BitVec 7)
    {i : Nat} (h4 : 4 ≤ i) (h7 : i < 7) : (reducePass poly p i).getLsbD i = false := by
  have hbit : i - (i - 4) = 4 := by omega
  have hnot : ¬ i < i - 4 := by omega
  unfold reducePass
  split_ifs with hset
  · simp only [BitVec.getLsbD_xor, BitVec.getLsbD_shiftLeft, BitVec.getLsbD_setWidth, hset, hbit,
      hdegree, hnot, h7]
    rfl
  · simpa using hset

/-- Pass i touches no bit above i. -/
theorem getLsbD_reducePass_of_lt (poly : BitVec 5) (p : BitVec 7) {i j : Nat} (h4 : 4 ≤ i)
    (hij : i < j) : (reducePass poly p i).getLsbD j = p.getLsbD j := by
  have hzero : poly.getLsbD (j - (i - 4)) = false := BitVec.getLsbD_of_ge poly _ (by omega)
  unfold reducePass
  split_ifs
  · simp only [BitVec.getLsbD_xor, BitVec.getLsbD_shiftLeft, BitVec.getLsbD_setWidth, hzero,
      Bool.and_false, Bool.xor_false]
  · rfl

/-- After the three passes no bit from 4 on is left. -/
theorem getLsbD_reduceProduct {poly : BitVec 5} (hdegree : poly.getLsbD 4 = true) (p : BitVec 7)
    {i : Nat} (h : 4 ≤ i) : (reduceProduct poly p).getLsbD i = false := by
  have hcases : i = 6 ∨ i = 5 ∨ i = 4 ∨ 7 ≤ i := by omega
  rw [reduceProduct_eq]
  rcases hcases with rfl | rfl | rfl | hout
  · rw [getLsbD_reducePass_of_lt _ _ (by decide) (by decide),
      getLsbD_reducePass_of_lt _ _ (by decide) (by decide),
      getLsbD_reducePass_self hdegree _ (by decide) (by decide)]
  · rw [getLsbD_reducePass_of_lt _ _ (by decide) (by decide),
      getLsbD_reducePass_self hdegree _ (by decide) (by decide)]
  · exact getLsbD_reducePass_self hdegree _ (by decide) (by decide)
  · exact BitVec.getLsbD_of_ge _ i hout

/-- Settles O10: the first loop computes the product exactly, the second changes it by multiples of
GF_POLY and leaves four bits. -/
theorem fieldMulIsProductModuloPolynomial : Obligations.FieldMulIsProductModuloPolynomial := by
  intro poly m v hdegree
  rw [fieldMul_eq, bitPolynomial_extractLsb' _ fun i h => getLsbD_reduceProduct hdegree _ h,
    ← bitPolynomial_carrylessProduct]
  exact dvd_sub_reduceProduct poly (carrylessProduct m v)

end Sys2Proof.Machine
end

section
/-! The laws of gfMul (40_field_arithmetic.md, R83), which follow from `fieldMul` being additive in each
argument; MULTIPLY (R82); and column mix as a linear map (43_column_mix.md, R109). -/

namespace Sys2Proof.Machine

/-! ### Multiplication by 0, 2 and 3 (R83) -/

theorem fieldMul_zero_left (poly : BitVec 5) (v : Nibble) : fieldMul poly 0 v = 0 := by
  have hsum := fieldMul_xor_left poly 0 0 v
  rwa [BitVec.xor_self, BitVec.xor_self] at hsum

theorem fieldMul_zero_right (poly : BitVec 5) (m : Nibble) : fieldMul poly m 0 = 0 := by
  have hsum := fieldMul_xor_right poly m 0 0
  rwa [BitVec.xor_self, BitVec.xor_self] at hsum

/-- Doubling shifts, and takes GF_POLY off where a bit leaves the nibble. -/
theorem fieldMul_two (poly : BitVec 5) (v : Nibble) :
    fieldMul poly 2 v = if v.getLsbD 3 then v <<< 1 ^^^ poly.extractLsb' 0 4 else v <<< 1 := by
  revert poly v
  decide

theorem fieldMul_three (poly : BitVec 5) (v : Nibble) :
    fieldMul poly 3 v = fieldMul poly 2 v ^^^ v := by
  calc fieldMul poly 3 v = fieldMul poly 2 v ^^^ fieldMul poly 1 v := fieldMul_xor_left poly 2 1 v
    _ = fieldMul poly 2 v ^^^ v := by rw [fieldMul_one]

/-- The square law: 3·3 is 2·2 + 1, because cross terms cancel. -/
theorem fieldMul_square_law (poly : BitVec 5) (v : Nibble) :
    fieldMul poly 3 (fieldMul poly 3 v) ^^^ fieldMul poly 2 (fieldMul poly 2 v) = v := by
  simp only [fieldMul_three, fieldMul_xor_right]
  calc fieldMul poly 2 (fieldMul poly 2 v) ^^^ fieldMul poly 2 v ^^^ (fieldMul poly 2 v ^^^ v) ^^^
        fieldMul poly 2 (fieldMul poly 2 v)
      = v ^^^ (fieldMul poly 2 (fieldMul poly 2 v) ^^^ fieldMul poly 2 (fieldMul poly 2 v)) ^^^
        (fieldMul poly 2 v ^^^ fieldMul poly 2 v) := by ac_rfl
    _ = v := by simp

/-! ### Bijectivity (R83) -/

/-- An irreducible GF_POLY has no zero divisors: checked for the three that the spec allows. -/
theorem fieldMul_eq_zero {poly : BitVec 5} (hpoly : PolyAllowed poly) {m : BitVec 2} (hm : m ≠ 0)
    {v : Nibble} (h : fieldMul poly (m.setWidth 4) v = 0) : v = 0 := by
  revert m v
  rcases hpoly with rfl | rfl | rfl <;> decide

theorem gfMul_injective {r : Roms} (h : r.Wf) {m : BitVec 2} (hm : m ≠ 0) :
    Function.Injective (gfMul r m) := by
  intro u v heq
  obtain ⟨p, ⟨-, hpoly⟩, rfl⟩ := h
  simp only [gfMul_ofParams] at heq
  have hsum : fieldMul p.gfPoly (m.setWidth 4) (u ^^^ v) = 0 := by
    rw [fieldMul_xor_right, heq]
    exact BitVec.xor_self
  exact BitVec.xor_eq_zero_iff.mp (fieldMul_eq_zero hpoly hm hsum)

/-- Settles O11: each law is one of `fieldMul`, which the rows of GF_MUL hold; an additive map with no
zero divisor is injective, so bijective on the nibbles. -/
theorem fieldMultiplicationLaws : Obligations.FieldMultiplicationLaws := by
  refine ⟨fun sbox poly u v m _ _ => ?_, fun r m h hm =>
    Finite.injective_iff_bijective.mp (gfMul_injective h hm)⟩
  simp only [gfMul_ofParams]
  exact ⟨fieldMul_zero_left poly v, fieldMul_one poly v, fieldMul_two poly v, fieldMul_three poly v,
    fieldMul_xor_right poly _ u v, fieldMul_square_law poly v⟩

/-! ### MULTIPLY (R82) -/

theorem multiply_completesWith (mul : BitVec 2) (a b : Word) (s : State) :
    CompletesWith (.multiply mul a b) s (nibbleData (gfMul s.roms mul (operandNibble a))) s.trace :=
  completesWith_of_exec_complete rfl

/-- An allowed polynomial is fixed by its four low coefficients. -/
theorem extractLsb'_polyAllowed_inj {p q : BitVec 5} (hp : PolyAllowed p) (hq : PolyAllowed q) :
    p.extractLsb' 0 4 = q.extractLsb' 0 4 ↔ p = q := by
  rcases hp with rfl | rfl | rfl <;> rcases hq with rfl | rfl | rfl <;> decide

/-- Doubling shows the polynomial exactly where it reduces: on nibbles with bit 3 set. -/
theorem fieldMul_two_eq_iff {p q : BitVec 5} (hp : PolyAllowed p) (hq : PolyAllowed q) (hne : p ≠ q)
    (v : Nibble) : fieldMul p 2 v = fieldMul q 2 v ↔ v.toNat < 8 := by
  have hbit : v.getLsbD 3 = true ↔ 8 ≤ v.toNat := by
    revert v
    decide
  rw [fieldMul_two, fieldMul_two]
  split_ifs with h3
  · rw [BitVec.xor_right_inj, extractLsb'_polyAllowed_inj hp hq]
    exact iff_of_false hne (not_lt.mpr (hbit.mp h3))
  · exact iff_of_true rfl (not_le.mp (mt hbit.mpr h3))

/-- Two allowed polynomials give different tables in the columns 8 to F of rows 2 and 3 alone: rows 0 and 1
name no polynomial, and row 3 differs where row 2 does. -/
theorem gfMul_ofParams_ne_iff {p q : Config.Params} (hp : PolyAllowed p.gfPoly)
    (hq : PolyAllowed q.gfPoly) (hne : p.gfPoly ≠ q.gfPoly) (m : BitVec 2) (v : Nibble) :
    gfMul (Roms.ofParams p) m v ≠ gfMul (Roms.ofParams q) m v ↔ 2 ≤ m.toNat ∧ 8 ≤ v.toNat := by
  have hrow2 := fieldMul_two_eq_iff hp hq hne v
  rw [gfMul_ofParams, gfMul_ofParams, ne_eq]
  match m with
  | 0 =>
    have hsame : fieldMul p.gfPoly 0 v = fieldMul q.gfPoly 0 v := by simp only [fieldMul_zero_left]
    exact iff_of_false (not_not.mpr hsame) (by simp)
  | 1 =>
    have hsame : fieldMul p.gfPoly 1 v = fieldMul q.gfPoly 1 v := by simp only [fieldMul_one]
    exact iff_of_false (not_not.mpr hsame) (by simp)
  | 2 =>
    have hiff : ¬ fieldMul p.gfPoly 2 v = fieldMul q.gfPoly 2 v ↔ 8 ≤ v.toNat := by
      rw [hrow2, not_lt]
    simpa using hiff
  | 3 =>
    have hiff : ¬ fieldMul p.gfPoly 3 v = fieldMul q.gfPoly 3 v ↔ 8 ≤ v.toNat := by
      rw [fieldMul_three, fieldMul_three, BitVec.xor_left_inj, hrow2, not_lt]
    simpa using hiff

/-- Settles O15; the corner cases are laws of `fieldMul`, and the example is one product modulo
x^4 + x + 1. -/
theorem multiplyAnswersTheProduct : Obligations.MultiplyAnswersTheProduct := by
  refine ⟨fun w hop => ?_, multiply_completesWith, fun r m v h => ?_,
    fun p q m v ⟨_, hp⟩ ⟨_, hq⟩ hne => gfMul_ofParams_ne_iff hp hq hne m v, fun sbox s hroms => ?_⟩
  · simp [decode, hop]
  · obtain ⟨p, -, rfl⟩ := h
    simp only [gfMul_ofParams]
    exact ⟨fieldMul_zero_left p.gfPoly v, fieldMul_one p.gfPoly v, fieldMul_zero_right p.gfPoly _⟩
  · have hfield : fieldMul 0x13 2 0x8 = 0x3 := by decide
    have hproduct : gfMul s.roms 2 (operandNibble 0x0008) = 0x3 := by
      rw [hroms, gfMul_ofParams]
      exact hfield
    have hdone := multiply_completesWith 2 0x0008 0x0000 s
    rwa [hproduct] at hdone

/-! ### Column mix (R108, R109) -/

theorem mixColumns_addRoundKey {r : Roms} (h : r.Wf) (s t : Block) :
    mixColumns r (addRoundKey s t) = addRoundKey (mixColumns r s) (mixColumns r t) := by
  simp only [mixColumns, mixCol, addRoundKey, gfMul_xor h]
  refine Block.ext ?_ ?_ ?_ ?_ <;> ac_rfl

/-- Settles O14: column mix adds products, and each row of GF_MUL is additive. -/
theorem columnMixFixedPointsAndLinearity : Obligations.ColumnMixFixedPointsAndLinearity :=
  fun _ h => ⟨mixCol_self h, mixColumns_of_equal_nibbles h, mixColumns_addRoundKey h⟩

end Sys2Proof.Machine
end

section
/-! Key mixing (44_key_mixing.md): ADDROUNDKEY (R115, R116) as exclusive-or, position by position and of
packed words. -/

namespace Sys2Proof.Machine

theorem addRoundKey_completesWith (mul : BitVec 2) (a b : Word) (s : State) :
    CompletesWith (.addRoundKey mul a b) s (blockData (addRoundKey (unpack a) (unpack b))) s.trace :=
  completesWith_of_exec_complete rfl

theorem pack_addRoundKey (x k : Block) : pack (addRoundKey x k) = pack x ^^^ pack k := by
  simp only [pack, addRoundKey, ← BitVec.xor_append]

/-- A law of exclusive-or on words is one of key mixing on States. -/
theorem addRoundKey_eq_unpack (x k : Block) : addRoundKey x k = unpack (pack x ^^^ pack k) := by
  rw [← pack_addRoundKey, unpack_pack]

@[simp] theorem addRoundKey_self (x : Block) : addRoundKey x x = unpack 0x0000 := by
  rw [addRoundKey_eq_unpack, BitVec.xor_self]
  rfl

@[simp] theorem addRoundKey_unpack_zero (x : Block) : addRoundKey x (unpack 0x0000) = x := by
  rw [addRoundKey_eq_unpack, pack_unpack]
  exact (congrArg unpack BitVec.xor_zero).trans (unpack_pack x)

theorem addRoundKey_comm (x k : Block) : addRoundKey x k = addRoundKey k x := by
  rw [addRoundKey_eq_unpack, addRoundKey_eq_unpack, BitVec.xor_comm]

theorem pack_addRoundKey_unpack_FFFF (x : Block) :
    pack (addRoundKey x (unpack 0xFFFF)) = ~~~ (pack x) := by
  rw [pack_addRoundKey, pack_unpack]
  exact BitVec.xor_allOnes

/-- Settles O20: each law is the one of exclusive-or on packed words. -/
theorem addRoundKeyXorsTheWords : Obligations.AddRoundKeyXorsTheWords := by
  refine ⟨fun w hop => ?_, addRoundKey_completesWith, pack_addRoundKey,
    fun x => ⟨addRoundKey_unpack_zero x, addRoundKey_self x, pack_addRoundKey_unpack_FFFF x⟩,
    addRoundKey_comm, fun s => ?_⟩
  · simp [decode, hop]
  · have hresult : addRoundKey (unpack 0xABCD) (unpack 0x5A5A) = unpack 0xF197 := by decide
    have hdone := addRoundKey_completesWith 0 0xABCD 0x5A5A s
    rwa [hresult, blockData_unpack] at hdone

end Sys2Proof.Machine
end

section
/-! Key schedule (45_key_schedule.md): what each pass over the registers leaves (R120), and the round keys
as XOR sums (R123), which are the words of `nextRoundKey` multiplied out. -/

namespace Sys2Proof.Machine

/-! ### The register loop (R120) -/

@[simp] theorem roundKeyOfWx_storeRoundKeys (j : Fin 3) (g : TxnRegs) :
    roundKeyOfWx j (storeRoundKeys g) = roundKeyOfWx j g := rfl

theorem storeRoundKeys_temp (g : TxnRegs) : (storeRoundKeys g).temp = g.temp := rfl

/-- The words WX and the round-key file agree at the end. -/
theorem roundKeysOf_storeRoundKeys (g : TxnRegs) : roundKeysOf (storeRoundKeys g) =
    ⟨roundKeyOfWx 0 g, roundKeyOfWx 1 g, roundKeyOfWx 2 g⟩ := rfl

theorem roundKeysOfWx_expandKeyRegs (r : Roms) (key : Key) (g : TxnRegs) :
    (⟨roundKeyOfWx 0 (expandKeyRegs r key g), roundKeyOfWx 1 (expandKeyRegs r key g),
      roundKeyOfWx 2 (expandKeyRegs r key g)⟩ : RoundKeys) = expandKey r key := by
  rw [← roundKeysOf_expandKeyRegs r key g, expandKeyRegs, roundKeysOf_storeRoundKeys]
  simp only [roundKeyOfWx_storeRoundKeys]

/-- TEMP after a pass comes from the last word of the round key before it. -/
theorem keyRound_temp (r : Roms) (i : Fin 2) (g : TxnRegs) :
    (keyRound r i g).temp = readTable r.sbox (roundKeyOfWx i.castSucc g).s3 ^^^ rcon i := rfl

theorem keyRound_frame (r : Roms) (i : Fin 2) (g : TxnRegs) :
    (keyRound r i g).req = g.req ∧ (keyRound r i g).w = g.w ∧ (keyRound r i g).step = g.step :=
  ⟨rfl, rfl, rfl⟩

theorem expandKeyRegs_frame (r : Roms) (key : Key) (g : TxnRegs) :
    (expandKeyRegs r key g).req = g.req ∧ (expandKeyRegs r key g).w = g.w ∧
      (expandKeyRegs r key g).step = g.step := by
  simp only [expandKeyRegs, storeRoundKeys, keyRound_frame, loadKey, and_self]

/-- TEMP at the end is the second round's, at the last word of RK1. -/
theorem expandKeyRegs_temp (r : Roms) (key : Key) (g : TxnRegs) :
    (expandKeyRegs r key g).temp = readTable r.sbox (expandKey r key).rk1.s3 ^^^ 0x2 := by
  have hkeep := roundKeyOfWx_keyRound_of_le r (i := 1) (j := 1) (by decide)
    (keyRound r 0 (loadKey key g))
  have hrk1 : roundKeyOfWx 1 (expandKeyRegs r key g) = (expandKey r key).rk1 :=
    congrArg RoundKeys.rk1 (roundKeysOfWx_expandKeyRegs r key g)
  rw [expandKeyRegs, roundKeyOfWx_storeRoundKeys, hkeep] at hrk1
  have htemp := keyRound_temp r 1 (keyRound r 0 (loadKey key g))
  have hcast : (1 : Fin 2).castSucc = (1 : Fin 3) := rfl
  rw [hcast, hrk1] at htemp
  rw [expandKeyRegs, storeRoundKeys_temp]
  exact htemp

/-- Settles O25: the words hold the round keys that `roundKeysOf_expandKeyRegs` finds in the file, four
words a key, and no pass writes REQ, W or STEP. -/
theorem registersComputeTheKeySchedule : Obligations.RegistersComputeTheKeySchedule := by
  intro r key g
  have hwords := roundKeysOfWx_expandKeyRegs r key g
  exact ⟨roundKeysOf_expandKeyRegs r key g, fun _ => rfl, congrArg RoundKeys.rk0 hwords,
    congrArg RoundKeys.rk1 hwords, congrArg RoundKeys.rk2 hwords, expandKeyRegs_temp r key g,
    expandKeyRegs_frame r key g⟩

/-! ### XOR sums (R123) -/

/-- The words of a round multiplied out: each takes all the words before it in the key, and the
temporary. -/
theorem nextRoundKey_eq_sums (r : Roms) (rc : Nibble) (k : Block) (t : Nibble)
    (ht : t = readTable r.sbox k.s3 ^^^ rc) :
    nextRoundKey r rc k = ⟨k.s0 ^^^ t, k.s0 ^^^ k.s1 ^^^ t, k.s0 ^^^ k.s1 ^^^ k.s2 ^^^ t,
      k.s0 ^^^ k.s1 ^^^ k.s2 ^^^ k.s3 ^^^ t⟩ := by
  simp only [nextRoundKey, ← ht]
  refine Block.ext rfl ?_ ?_ ?_ <;> ac_rfl

/-- Each round key that the words hold is the next one of the one before it. -/
theorem roundKeyOfWx_succ_expandKeyRegs (r : Roms) (key : Key) (g : TxnRegs) (i : Fin 2) :
    roundKeyOfWx i.succ (expandKeyRegs r key g) =
      nextRoundKey r (rcon i) (roundKeyOfWx i.castSucc (expandKeyRegs r key g)) := by
  have hwords := roundKeysOfWx_expandKeyRegs r key g
  have h0 : roundKeyOfWx 0 (expandKeyRegs r key g) = _ := congrArg RoundKeys.rk0 hwords
  have h1 : roundKeyOfWx 1 (expandKeyRegs r key g) = _ := congrArg RoundKeys.rk1 hwords
  have h2 : roundKeyOfWx 2 (expandKeyRegs r key g) = _ := congrArg RoundKeys.rk2 hwords
  match i with
  | 0 => exact h1.trans (congrArg (nextRoundKey r (rcon 0)) h0.symm)
  | 1 => exact h2.trans (congrArg (nextRoundKey r (rcon 1)) h1.symm)

/-- Settles O26: round i's four words are those of the next round key after round key i. -/
theorem roundKeysAreXorSums : Obligations.RoundKeysAreXorSums := by
  intro r key g i wx t hwx ht
  have hword (k : Nat) (hk : k < 12) : wx k = readWx ⟨k, hk⟩ (expandKeyRegs r key g) := hwx ⟨k, hk⟩
  have hprev : roundKeyOfWx i.castSucc (expandKeyRegs r key g) =
      ⟨wx (4 * i.val), wx (4 * i.val + 1), wx (4 * i.val + 2), wx (4 * i.val + 3)⟩ := by
    simp only [roundKeyOfWx, hword _ (show 4 * i.val + 3 < 12 by omega),
      hword _ (show 4 * i.val + 2 < 12 by omega), hword _ (show 4 * i.val + 1 < 12 by omega),
      hword _ (show 4 * i.val < 12 by omega), Fin.val_castSucc]
  have hnext : roundKeyOfWx i.succ (expandKeyRegs r key g) =
      ⟨wx (4 * i.val + 4), wx (4 * i.val + 5), wx (4 * i.val + 6), wx (4 * i.val + 7)⟩ := by
    simp only [roundKeyOfWx, hword _ (show 4 * i.val + 4 < 12 by omega),
      hword _ (show 4 * i.val + 5 < 12 by omega), hword _ (show 4 * i.val + 6 < 12 by omega),
      hword _ (show 4 * i.val + 7 < 12 by omega), Fin.val_succ, Nat.mul_add]
  have hround := roundKeyOfWx_succ_expandKeyRegs r key g i
  rw [hnext, hprev, nextRoundKey_eq_sums r (rcon i) _ t ht] at hround
  simpa only [Block.mk.injEq] using hround

end Sys2Proof.Machine
end

section
/-! Cipher pipelines (46_cipher_pipelines.md): the step tables against the pseudocode (R130 to R136), STEP
and the trace (R31, R140), which steps undo and which commute (R136, R137), the source's vector
(95_test_vectors.md section 1.1), and ENCRYPT and DECRYPT (R131, R135). -/

namespace Sys2Proof.Machine

/-! ### The step tables (R132, R136) -/

theorem pipelineResult_encryptSteps (r : Roms) (x key : Block) :
    pipelineResult r (expandKey r key) encryptSteps x = encrypt r x key := rfl

theorem pipelineResult_decryptSteps (r : Roms) (x key : Block) :
    pipelineResult r (expandKey r key) decryptSteps x = decrypt r x key := rfl

/-- Settles O28: folding the rows of each table over W is the pseudocode, line by line. -/
theorem stepTablesComputeEncryptAndDecrypt : Obligations.StepTablesComputeEncryptAndDecrypt :=
  fun r x key => ⟨pipelineResult_encryptSteps r x key, pipelineResult_decryptSteps r x key⟩

/-- Settles O30: the trace has one entry for each row of the table, whatever the tables and the data. -/
theorem traceHasTheEightLabels : Obligations.TraceHasTheEightLabels := fun _ _ _ =>
  ⟨⟨_, _, _, _, _, _, _, rfl⟩, ⟨_, _, _, _, _, _, _, rfl⟩⟩

/-- STEP counts the steps that have run, for any sequence of fewer than 16. -/
theorem step_runSteps_startPipeline {ps : List PipeStep} (h : ps.length < 16) (input : Block)
    (key : Key) (s : State) :
    (runSteps ps (startPipeline input key s)).regs.step.toNat = ps.length := by
  obtain ⟨-, -, hstep, -⟩ := runSteps_spec ps (startPipeline input key s)
  rw [hstep, startPipeline_step, BitVec.ofNat_eq_ofNat, BitVec.zero_add, BitVec.toNat_ofNat,
    Nat.mod_eq_of_lt h]

/-- Settles O29: the first k rows of either table are k steps. -/
theorem stepIndexCountsThePrimitives : Obligations.StepIndexCountsThePrimitives := by
  intro s input key k hk
  have hcount (ps : List PipeStep) (h8 : ps.length = 8) :
      (runSteps (ps.take k) (startPipeline input key s)).regs.step.toNat = k := by
    have hlength : (ps.take k).length = k := List.length_take_of_le (h8 ▸ hk)
    rw [step_runSteps_startPipeline (by omega), hlength]
  exact ⟨hcount encryptSteps rfl, hcount decryptSteps rfl⟩

/-! ### Steps that undo steps (R136) -/

/-- The operation that undoes a step's: every one is its own inverse but the substitutions. -/
def PipeOp.inverse : PipeOp → PipeOp
  | .addRoundKey k => .addRoundKey k
  | .subNibbles => .invSubNibbles
  | .invSubNibbles => .subNibbles
  | .shiftRows => .shiftRows
  | .mixColumns => .mixColumns

theorem PipeOp.inverse_apply_apply {r : Roms} (h : r.Wf) (rks : RoundKeys) (op : PipeOp)
    (w : Block) : op.inverse.apply r rks (op.apply r rks w) = w := by
  cases op with
  | addRoundKey k => exact addRoundKey_addRoundKey w (readRoundKey rks k)
  | subNibbles => exact invSubNibbles_subNibbles h w
  | invSubNibbles => exact subNibbles_invSubNibbles h w
  | shiftRows => exact shiftRows_shiftRows w
  | mixColumns => exact mixColumns_mixColumns h w

/-- The decrypt table is the encrypt table inverted and read backwards. -/
theorem decryptSteps_map_op :
    decryptSteps.map PipeStep.op = (encryptSteps.map fun p => p.op.inverse).reverse := rfl

/-- Step Dj is the inverse of step E(9-j). -/
theorem op_eq_inverse_of_getElem? {j : Nat} {d e : PipeStep} (hd : decryptSteps[j]? = some d)
    (he : encryptSteps[7 - j]? = some e) : d.op = e.op.inverse := by
  obtain ⟨hj, -⟩ := List.getElem?_eq_some_iff.mp hd
  have hentry : (decryptSteps.map PipeStep.op)[j]? =
      (encryptSteps.map fun p => p.op.inverse)[7 - j]? := by
    rw [decryptSteps_map_op]
    exact List.getElem?_reverse hj
  simpa only [List.getElem?_map, hd, he, Option.map_some, Option.some.injEq] using hentry

/-- Settles O31: each step of the decrypt table is the inverse of its counterpart. -/
theorem decryptStepsUndoEncryptSteps : Obligations.DecryptStepsUndoEncryptSteps := by
  intro r rks w j d e h hd he
  rw [op_eq_inverse_of_getElem? hd he]
  exact PipeOp.inverse_apply_apply h rks e.op w

/-- Settles O33: the inverse steps meet pair by pair, from the middle outwards. -/
theorem decryptUndoesEncrypt : Obligations.DecryptUndoesEncrypt := fun _ key x h =>
  ⟨decrypt_encrypt h x key, encrypt_decrypt h x key⟩

/-! ### Steps that commute (R137) -/

/-- Substitution acts on each position alike, so moving positions before or after it is the same. -/
theorem shiftRows_subNibbles (r : Roms) (w : Block) :
    shiftRows (subNibbles r w) = subNibbles r (shiftRows w) := rfl

theorem shiftRows_invSubNibbles (r : Roms) (w : Block) :
    shiftRows (invSubNibbles r w) = invSubNibbles r (shiftRows w) := rfl

/-- One input and key for which every other exchange shows in the result, with the default tables. -/
theorem swapAdjacent_changes_result : ∀ n < 7, n ≠ 1 → n ≠ 5 →
    pipelineResult (Roms.ofParams defaultParams)
        (expandKey (Roms.ofParams defaultParams) (unpack 0x0011)) (swapAdjacent n encryptSteps)
        (unpack 0x0001) ≠
      encrypt (Roms.ofParams defaultParams) (unpack 0x0001) (unpack 0x0011) ∧
    pipelineResult (Roms.ofParams defaultParams)
        (expandKey (Roms.ofParams defaultParams) (unpack 0x0011)) (swapAdjacent n decryptSteps)
        (unpack 0x0001) ≠
      decrypt (Roms.ofParams defaultParams) (unpack 0x0001) (unpack 0x0011) := by
  decide

/-- Settles O32: pairs 1 and 5 of either table are a substitution and a row shift. -/
theorem onlySubstitutionAndRowShiftCommute : Obligations.OnlySubstitutionAndRowShiftCommute := by
  refine ⟨fun r rks w n hn => ?_, fun n h7 h1 h5 => ?_⟩
  · rcases hn with rfl | rfl <;>
      simp only [pipelineResult, swapAdjacent, encryptSteps, decryptSteps, List.foldl_cons,
        List.foldl_nil, PipeOp.apply, shiftRows_subNibbles, shiftRows_invSubNibbles, and_self]
  · obtain ⟨hencrypt, hdecrypt⟩ := swapAdjacent_changes_result n h7 h1 h5
    exact ⟨⟨_, _, hencrypt⟩, ⟨_, _, hdecrypt⟩⟩

/-! ### The source's vector (95_test_vectors.md section 1.1) -/

/-! Up to step E7 every State of the vector has four equal nibbles, so row shift and column mix fix it, and
the substitutions read one entry each. -/

theorem shiftRows_EEEE : shiftRows (unpack 0xEEEE) = unpack 0xEEEE := shiftRows_eq_self rfl

theorem shiftRows_4444 : shiftRows (unpack 0x4444) = unpack 0x4444 := shiftRows_eq_self rfl

theorem mixColumns_EEEE {r : Roms} (h : r.Wf) : mixColumns r (unpack 0xEEEE) = unpack 0xEEEE :=
  mixColumns_of_equal_nibbles h 0xE 0xE

theorem subNibbles_0000 {r : Roms} (h : r.Wf) : subNibbles r (unpack 0x0000) = unpack 0xEEEE := by
  obtain ⟨-, hentry0, -, -⟩ := h.sbox_allowed
  exact subNibbles_of_equal_positions hentry0

theorem subNibbles_1111 {r : Roms} (h : r.Wf) : subNibbles r (unpack 0x1111) = unpack 0x4444 := by
  obtain ⟨-, -, hentry1, -⟩ := h.sbox_allowed
  exact subNibbles_of_equal_positions hentry1

theorem invSubNibbles_EEEE {r : Roms} (h : r.Wf) : invSubNibbles r (unpack 0xEEEE) = unpack 0x0000 := by
  rw [← subNibbles_0000 h, invSubNibbles_subNibbles h]

theorem invSubNibbles_4444 {r : Roms} (h : r.Wf) : invSubNibbles r (unpack 0x4444) = unpack 0x1111 := by
  rw [← subNibbles_1111 h, invSubNibbles_subNibbles h]

theorem encryptTrace_of_sourceVector {r : Roms} (h : r.Wf) :
    encryptTrace r (unpack 0x0000) (unpack 0x0000) =
      [.roundKeys ⟨unpack 0x0000, unpack 0xFFFF, unpack 0xA5A5⟩,
        .after .e1 (unpack 0x0000), .after .e2 (unpack 0xEEEE), .after .e3 (unpack 0xEEEE),
        .after .e4 (unpack 0xEEEE), .after .e5 (unpack 0x1111), .after .e6 (unpack 0x4444),
        .after .e7 (unpack 0x4444), .after .e8 (unpack 0xE1E1)] := by
  have hkey1 : addRoundKey (unpack 0xEEEE) (unpack 0xFFFF) = unpack 0x1111 := by decide
  have hkey2 : addRoundKey (unpack 0x4444) (unpack 0xA5A5) = unpack 0xE1E1 := by decide
  simp only [encryptTrace, expandKey_unpack_0000 h, encryptSteps, pipelineTrace, PipeOp.apply,
    readRoundKey, addRoundKey_unpack_zero, subNibbles_0000 h, subNibbles_1111 h, shiftRows_EEEE,
    shiftRows_4444, mixColumns_EEEE h, hkey1, hkey2]

/-- The last entry of the trace is the ciphertext. -/
theorem encrypt_sourceVector {r : Roms} (h : r.Wf) :
    encrypt r (unpack 0x0000) (unpack 0x0000) = unpack 0xE1E1 := by
  obtain ⟨⟨_, _, _, _, _, _, _, htrace⟩, -⟩ := traceHasTheEightLabels r (unpack 0x0000) (unpack 0x0000)
  rw [encryptTrace_of_sourceVector h] at htrace
  have hlast := congrArg List.getLast? htrace
  obtain ⟨-, hw⟩ := TraceEntry.after.inj (Option.some.inj hlast)
  exact hw.symm

theorem decrypt_sourceVector {r : Roms} (h : r.Wf) :
    decrypt r (unpack 0xE1E1) (unpack 0x0000) = unpack 0x0000 := by
  rw [← encrypt_sourceVector h, decrypt_encrypt h]

/-- The way back through the same States, by entries 4 and E of INV_SBOX. -/
theorem decryptTrace_of_sourceVector {r : Roms} (h : r.Wf) :
    decryptTrace r (unpack 0xE1E1) (unpack 0x0000) =
      [.roundKeys ⟨unpack 0x0000, unpack 0xFFFF, unpack 0xA5A5⟩,
        .after .d1 (unpack 0x4444), .after .d2 (unpack 0x4444), .after .d3 (unpack 0x1111),
        .after .d4 (unpack 0xEEEE), .after .d5 (unpack 0xEEEE), .after .d6 (unpack 0xEEEE),
        .after .d7 (unpack 0x0000), .after .d8 (unpack 0x0000)] := by
  have hkey2 : addRoundKey (unpack 0xE1E1) (unpack 0xA5A5) = unpack 0x4444 := by decide
  have hkey1 : addRoundKey (unpack 0x1111) (unpack 0xFFFF) = unpack 0xEEEE := by decide
  simp only [decryptTrace, expandKey_unpack_0000 h, decryptSteps, pipelineTrace, PipeOp.apply,
    readRoundKey, addRoundKey_unpack_zero, invSubNibbles_4444 h, invSubNibbles_EEEE h,
    shiftRows_4444, shiftRows_EEEE, mixColumns_EEEE h, hkey1, hkey2]

/-- A round of the key schedule shows the table entry that it read. -/
theorem readTable_eq_of_nextRoundKey {r : Roms} {rc : Nibble} {k k' : Block}
    (h : nextRoundKey r rc k = k') : readTable r.sbox k.s3 = k.s0 ^^^ k'.s0 ^^^ rc := by
  have hs0 : k'.s0 = k.s0 ^^^ (readTable r.sbox k.s3 ^^^ rc) := h ▸ rfl
  calc readTable r.sbox k.s3 = readTable r.sbox k.s3 ^^^ rc ^^^ rc := xor_cancel_right .. |>.symm
    _ = k.s0 ^^^ k.s0 ^^^ (readTable r.sbox k.s3 ^^^ rc ^^^ rc) := by simp
    _ = k.s0 ^^^ k'.s0 ^^^ rc := by rw [hs0]; ac_rfl

theorem sboxAllowed_defaultSbox : SboxAllowed defaultSbox := by decide

/-- Column mix reads no SBOX, so its fixed points need an allowed polynomial only. -/
theorem mixColumns_ofParams_of_equal_nibbles (sbox : Vector Nibble 16) {poly : BitVec 5}
    (h : PolyAllowed poly) (a b : Nibble) :
    mixColumns (Roms.ofParams ⟨sbox, poly⟩) ⟨a, a, b, b⟩ = ⟨a, a, b, b⟩ :=
  mixColumns_of_equal_nibbles (r := Roms.ofParams ⟨defaultSbox, poly⟩)
    ⟨_, ⟨sboxAllowed_defaultSbox, h⟩, rfl⟩ a b

/-- Under the vector's round keys and entry 0, the ciphertext is entry 1 of SBOX at every position, under
RK2. -/
theorem encrypt_0000_eq {r : Roms}
    (hkeys : expandKey r (unpack 0x0000) = ⟨unpack 0x0000, unpack 0xFFFF, unpack 0xA5A5⟩)
    (hentry0 : readTable r.sbox 0x0 = 0xE)
    (hmix : mixColumns r (unpack 0xEEEE) = unpack 0xEEEE) :
    encrypt r (unpack 0x0000) (unpack 0x0000) =
      addRoundKey (subNibbles r (unpack 0x1111)) (unpack 0xA5A5) := by
  have hsub0 : subNibbles r (unpack 0x0000) = unpack 0xEEEE := subNibbles_of_equal_positions hentry0
  have hkey1 : addRoundKey (unpack 0xEEEE) (unpack 0xFFFF) = unpack 0x1111 := by decide
  have hshift : shiftRows (subNibbles r (unpack 0x1111)) = subNibbles r (unpack 0x1111) := rfl
  simp only [encrypt_eq, hkeys, addRoundKey_unpack_zero, hsub0, shiftRows_EEEE, hmix, hkey1, hshift]

/-- The vector shows entries 0 and F of SBOX in its round keys, and then entry 1 in its ciphertext. -/
theorem sbox_entries_of_sourceVector {sbox : Vector Nibble 16} {poly : BitVec 5}
    (hpoly : PolyAllowed poly)
    (hkeys : expandKey (Roms.ofParams ⟨sbox, poly⟩) (unpack 0x0000) =
      ⟨unpack 0x0000, unpack 0xFFFF, unpack 0xA5A5⟩)
    (hcipher : encrypt (Roms.ofParams ⟨sbox, poly⟩) (unpack 0x0000) (unpack 0x0000) =
      unpack 0xE1E1) :
    readTable sbox 0x0 = 0xE ∧ readTable sbox 0xF = 0x7 ∧ readTable sbox 0x1 = 0x4 := by
  obtain ⟨-, hrk1, hrk2⟩ := RoundKeys.mk.inj hkeys
  rw [hrk1] at hrk2
  have hentry0 : readTable sbox 0x0 = 0xE := readTable_eq_of_nextRoundKey hrk1
  have hentryF : readTable sbox 0xF = 0x7 := readTable_eq_of_nextRoundKey hrk2
  have hmix := mixColumns_ofParams_of_equal_nibbles sbox hpoly 0xE 0xE
  have hsum := congrArg (addRoundKey · (unpack 0xA5A5))
    ((encrypt_0000_eq hkeys hentry0 hmix).symm.trans hcipher)
  simp only [addRoundKey_addRoundKey] at hsum
  exact ⟨hentry0, hentryF, congrArg Block.s0 hsum⟩

/-- Settles O27: every allowed table gives the vector, and the vector gives back the entries that it
reads. -/
theorem sourceVectorFixesThreeEntries : Obligations.SourceVectorFixesThreeEntries :=
  ⟨fun _ h => ⟨expandKey_unpack_0000 h, encrypt_sourceVector h, decrypt_sourceVector h⟩,
    fun _ _ => sbox_entries_of_sourceVector⟩

/-! ### ENCRYPT and DECRYPT (R131, R135) -/

/-- Settles O22: the corner case is a State added to itself, for RK0 is the key. -/
theorem encryptAnswersTheCiphertext : Obligations.EncryptAnswersTheCiphertext := by
  refine ⟨fun w hop => ?_, encrypt_completesWith, fun _ x => addRoundKey_self x, fun s h => ?_⟩
  · simp [decode, hop]
  · have hdone := encrypt_completesWith 0 0x0000 0x0000 s
    rwa [encrypt_sourceVector h, encryptTrace_of_sourceVector h, blockData_unpack] at hdone

/-- Settles O23: ENCRYPT under a key is a bijection (R139), so each ciphertext has one plaintext, which
DECRYPT finds. -/
theorem decryptAnswersThePlaintext : Obligations.DecryptAnswersThePlaintext := by
  refine ⟨fun w hop => ?_, decrypt_completesWith,
    fun r key c h => (encryptIsABijection r key h).existsUnique c,
    fun _ key p h => decrypt_encrypt h p key, fun s h => ?_⟩
  · simp [decode, hop]
  · have hdone := decrypt_completesWith 0 0xE1E1 0x0000 s
    rwa [decrypt_sourceVector h, decryptTrace_of_sourceVector h, blockData_unpack] at hdone

end Sys2Proof.Machine
end

section
/-! Table reads (70_reset_and_hazards.md section 4): which tables an operation reads, in what order (R180),
is fixed by its OP; and its result is fixed by the entries read. Both go step by step along a pipeline. -/

namespace Sys2Proof.Machine

/-! ### The order of the reads (R84, R180) -/

/-- The tables that a pipeline step reads, in order. -/
def PipeOp.spaces : PipeOp → List RomSpace
  | .addRoundKey _ => []
  | .subNibbles => List.replicate 4 .sbox
  | .invSubNibbles => List.replicate 4 .invSbox
  | .shiftRows => []
  | .mixColumns => List.replicate 8 .gfMul

theorem map_space_pipeOpReads (op : PipeOp) (w : Block) :
    (pipeOpReads op w).map RomAccess.space = op.spaces := by
  cases op <;> rfl

theorem map_space_pipelineReads (r : Roms) (rks : RoundKeys) (ps : List PipeStep) (w : Block) :
    (pipelineReads r rks ps w).map RomAccess.space = ps.flatMap fun p => p.op.spaces := by
  induction ps generalizing w with
  | nil => rfl
  | cons p ps ih =>
    rw [pipelineReads, List.map_append, map_space_pipeOpReads, ih, List.flatMap_cons]

theorem map_space_keyScheduleReads (r : Roms) (key : Key) :
    (keyScheduleReads r key).map RomAccess.space = List.replicate 2 .sbox := rfl

/-- The tables that a transaction with an OP reads, in order; a reserved OP reads none. -/
def spacesOfOp (op : BitVec 4) : List RomSpace :=
  match op.toNat with
  | 0 => List.replicate 2 .sbox ++ encryptSteps.flatMap fun p => p.op.spaces
  | 1 => List.replicate 2 .sbox ++ decryptSteps.flatMap fun p => p.op.spaces
  | 2 => List.replicate 2 .sbox
  | 3 => PipeOp.subNibbles.spaces
  | 4 => PipeOp.invSubNibbles.spaces
  | 6 => PipeOp.mixColumns.spaces
  | 8 => [.gfMul]
  | _ => []

theorem map_space_transactionReads (r : Roms) (i : Instr) :
    (transactionReads r i).map RomAccess.space = spacesOfOp i.opcode := by
  cases i with
  | encrypt | decrypt =>
    rw [transactionReads, List.map_append, map_space_keyScheduleReads, map_space_pipelineReads]
    rfl
  | expandKey => exact map_space_keyScheduleReads ..
  | subNibbles | invSubNibbles | shiftRows | mixColumns | addRoundKey =>
    rw [transactionReads]
    exact map_space_pipeOpReads ..
  | multiply => rfl

/-! ### The rows of GF_MUL that the cipher reads (R84) -/

theorem row_of_gfMul_mem_pipeOpReads {op : PipeOp} {w : Block} {m : BitVec 2} {v : Nibble}
    (h : .gfMul m v ∈ pipeOpReads op w) : m = 2 ∨ m = 3 := by
  cases op with
  | mixColumns =>
    simp only [pipeOpReads, mixColReads, List.mem_append, List.mem_cons, RomAccess.gfMul.injEq,
      List.not_mem_nil] at h
    tauto
  | addRoundKey | subNibbles | invSubNibbles | shiftRows => simp [pipeOpReads] at h

theorem row_of_gfMul_mem_pipelineReads {r : Roms} {rks : RoundKeys} {ps : List PipeStep} {w : Block}
    {m : BitVec 2} {v : Nibble} (h : .gfMul m v ∈ pipelineReads r rks ps w) : m = 2 ∨ m = 3 := by
  induction ps generalizing w with
  | nil => cases h
  | cons p ps ih => exact (List.mem_append.mp h).elim row_of_gfMul_mem_pipeOpReads ih

theorem gfMul_notMem_keyScheduleReads {r : Roms} {key : Key} {m : BitVec 2} {v : Nibble} :
    .gfMul m v ∉ keyScheduleReads r key := by
  simp [keyScheduleReads]

/-- Only a column-mix step reads GF_MUL, but for MULTIPLY. -/
theorem row_of_gfMul_mem_transactionReads {r : Roms} {i : Instr} {m : BitVec 2} {v : Nibble}
    (hop : i.opcode ≠ 0x8) (h : .gfMul m v ∈ transactionReads r i) : m = 2 ∨ m = 3 := by
  cases i with
  | encrypt | decrypt =>
    rcases List.mem_append.mp h with hkey | hpipe
    · exact absurd hkey gfMul_notMem_keyScheduleReads
    · exact row_of_gfMul_mem_pipelineReads hpipe
  | expandKey => exact absurd h gfMul_notMem_keyScheduleReads
  | subNibbles | invSubNibbles | shiftRows | mixColumns | addRoundKey =>
    rw [transactionReads] at h
    exact row_of_gfMul_mem_pipeOpReads h
  | multiply => exact absurd rfl hop

/-- Settles O35: the listed orders are `spacesOfOp` at the nine opcodes. -/
theorem tableReadsAreAtFixedSteps : Obligations.TableReadsAreAtFixedSteps :=
  ⟨fun r _ _ _ => ⟨map_space_transactionReads r (.encrypt ..), map_space_transactionReads r (.decrypt ..),
    map_space_transactionReads r (.expandKey ..), map_space_transactionReads r (.subNibbles ..),
    map_space_transactionReads r (.invSubNibbles ..), map_space_transactionReads r (.shiftRows ..),
    map_space_transactionReads r (.mixColumns ..), map_space_transactionReads r (.addRoundKey ..),
    map_space_transactionReads r (.multiply ..)⟩,
    fun _ _ _ _ => row_of_gfMul_mem_transactionReads⟩

/-! ### The entries read fix the result (R49, R180) -/

theorem PipeOp.apply_congr {r r' : Roms} {op : PipeOp} {w : Block}
    (h : ∀ x ∈ pipeOpReads op w, x.value r = x.value r') (rks : RoundKeys) :
    op.apply r rks w = op.apply r' rks w := by
  cases op with
  | addRoundKey | shiftRows => rfl
  | subNibbles | invSubNibbles =>
    simp only [pipeOpReads, List.forall_mem_cons, RomAccess.value] at h
    obtain ⟨h0, h1, h2, h3, -⟩ := h
    exact Block.ext h0 h1 h2 h3
  | mixColumns =>
    simp only [pipeOpReads, mixColReads, List.forall_mem_append, List.forall_mem_cons,
      RomAccess.value] at h
    obtain ⟨⟨h30, h21, h20, h31, -⟩, h32, h23, h22, h33, -⟩ := h
    exact Block.ext (congrArg₂ (· ^^^ ·) h30 h21) (congrArg₂ (· ^^^ ·) h20 h31)
      (congrArg₂ (· ^^^ ·) h32 h23) (congrArg₂ (· ^^^ ·) h22 h33)

/-- Each step leaves the same W under both tables, so the next one reads the same entries. -/
theorem pipelineResult_congr {r r' : Roms} {rks : RoundKeys} {ps : List PipeStep} {w : Block}
    (h : ∀ x ∈ pipelineReads r rks ps w, x.value r = x.value r') :
    pipelineResult r rks ps w = pipelineResult r' rks ps w := by
  induction ps generalizing w with
  | nil => rfl
  | cons p ps ih =>
    rw [pipelineReads, List.forall_mem_append] at h
    obtain ⟨hfirst, hrest⟩ := h
    have happly := PipeOp.apply_congr hfirst rks
    have htail := ih hrest
    simp only [pipelineResult, List.foldl_cons] at htail ⊢
    rw [htail, happly]

theorem expandKey_congr_of_reads {r r' : Roms} {key : Key}
    (h : ∀ x ∈ keyScheduleReads r key, x.value r = x.value r') :
    expandKey r key = expandKey r' key := by
  simp only [keyScheduleReads, List.forall_mem_cons, RomAccess.value] at h
  obtain ⟨hfirst, hsecond, -⟩ := h
  exact expandKey_congr hfirst hsecond

/-- The round keys come from the entries that the schedule reads, and W from those of the pipeline. -/
theorem pipeline_with_keySchedule_congr {r r' : Roms} {key : Key} {ps : List PipeStep} {w : Block}
    (h : ∀ x ∈ keyScheduleReads r key ++ pipelineReads r (expandKey r key) ps w,
      x.value r = x.value r') :
    pipelineResult r (expandKey r key) ps w = pipelineResult r' (expandKey r' key) ps w := by
  obtain ⟨hkey, hpipe⟩ := List.forall_mem_append.mp h
  rw [pipelineResult_congr hpipe, expandKey_congr_of_reads hkey]

/-- Settles O36: each operation is the key schedule, a pipeline, one step of a pipeline, or one product. -/
theorem resultDependsOnlyOnEntriesRead : Obligations.ResultDependsOnlyOnEntriesRead := by
  intro r r' i h
  cases i with
  | encrypt | decrypt => exact congrArg blockData (pipeline_with_keySchedule_congr h)
  | expandKey => exact congrArg roundKeysData (expandKey_congr_of_reads h)
  | subNibbles | invSubNibbles | mixColumns =>
    rw [transactionReads] at h
    exact congrArg blockData (PipeOp.apply_congr h default)
  | shiftRows | addRoundKey => rfl
  | multiply => exact congrArg nibbleData (h _ (List.mem_singleton_self _))

end Sys2Proof.Machine
end

section
/-! The whole machine (10_state.md, 70_reset_and_hazards.md): what a step does to the registers, the
invariant, what OP alone fixes, reset, and the host's runs and programs. -/

namespace Sys2Proof.Machine

/-! ### The cases of a step -/

/-- Settles O38: with nothing to fetch, a step is the identity. -/
theorem idleCoreKeepsItsState : Obligations.IdleCoreKeepsItsState := by
  intro s hidle
  simp only [step, fetch, hidle]

theorem step_of_decode_ok {s : State} {w : ReqWord} {i : Instr} (hrequest : s.request = some w)
    (h : decode w = .ok i) : step s = exec i (accept w s) := by
  simp only [step, fetch, hrequest, h]

/-- Settles O37: the state that the step executes from is the accepted one. -/
theorem stepRunsTheDecodedInstruction : Obligations.StepRunsTheDecodedInstruction :=
  fun s w _ hrequest h => ⟨accept w s, step_of_decode_ok hrequest h, accept_req s w, accept_step s w,
    accept_request s w, accept_response s w, accept_trace s w, accept_roms s w, accept_draws s w⟩

/-! ### The registers after a transaction (R27, R171) -/

theorem exec_regs_draws (i : Instr) (s : State) :
    ∃ t : State, exec i s = .next t ∧ t.regs = freeRegs s.draws ∧ t.draws = s.draws + 1 := by
  obtain ⟨d, s', hexec, -, -, hdraws⟩ := exec_completes i s
  exact ⟨_, hexec, by simp [hdraws], by simp [hdraws]⟩

/-- Settles O43: every end of a transaction discards its registers for the free values of the count. -/
theorem nothingSurvivesInTheRegisters : Obligations.NothingSurvivesInTheRegisters := by
  intro n
  refine ⟨freeRegs n, fun s hs => ?_⟩
  subst hs
  exact ⟨fun i => exec_regs_draws i s, fun w hw => ⟨_, step_present_of_reserved hw s, rfl, rfl⟩,
    assertReset_regs s, assertReset_draws s⟩

/-! ### The invariant (R21 to R26, R31) -/

theorem resetWith_inv {p : Config.Params} (h : ParamsAllowed p) : (State.resetWith p).Inv :=
  ⟨⟨p, h, rfl⟩, Nat.zero_le 8⟩

theorem paramsAllowed_defaultParams : ParamsAllowed defaultParams :=
  ⟨sboxAllowed_defaultSbox, .inl rfl⟩

/-- Settles O44: the tables are those of the parameters, and STEP is 0. -/
theorem resetIsIdleAndMeetsTheInvariant : Obligations.ResetIsIdleAndMeetsTheInvariant :=
  ⟨resetWith_inv paramsAllowed_defaultParams, rfl, rfl, fun _ => resetWith_inv⟩

/-- A state with the tables of `s` and registers of free values meets the invariant if `s` does. -/
theorem State.Inv.of_freeRegs {s t : State} (h : s.Inv) (hroms : t.roms = s.roms) {n : Nat}
    (hregs : t.regs = freeRegs n) : t.Inv :=
  by
  obtain ⟨hwf, -⟩ := h
  exact ⟨hroms ▸ hwf, hregs ▸ freeRegs_step n⟩

/-- Settles O45: no step writes the tables (R177), and a step leaves the registers as they are or
discards them. -/
theorem everyStepKeepsTheInvariant : Obligations.EveryStepKeepsTheInvariant := by
  intro s h
  refine ⟨?_, h.of_freeRegs (assertReset_roms s) (assertReset_regs s)⟩
  obtain ⟨t, hstep, hroms, -⟩ := step_keeps_roms_and_idles s
  refine ⟨t, hstep, ?_⟩
  obtain ⟨-, hkeep⟩ | ⟨w, i, -, -, hrun⟩ | ⟨w, op, -, -, hraise⟩ := step_cases s
  · obtain rfl : s = t := Host.Outcome.next.inj (hkeep.symm.trans hstep)
    exact h
  · obtain ⟨t', hexec, hregs, -⟩ := exec_regs_draws i (accept w s)
    obtain rfl : t' = t := Host.Outcome.next.inj (hexec.symm.trans (hrun.symm.trans hstep))
    exact h.of_freeRegs hroms hregs
  · obtain rfl := Host.Outcome.next.inj (hraise.symm.trans hstep)
    exact h.of_freeRegs hroms (raise_regs ..)

/-! ### What OP alone fixes (R179, R180) -/

theorem map_label_pipelineTrace (r : Roms) (rks : RoundKeys) (ps : List PipeStep) (w : Block) :
    (pipelineTrace r rks ps w).map TraceEntry.label = ps.map fun p => some p.label := by
  induction ps generalizing w with
  | nil => rfl
  | cons p ps ih => rw [pipelineTrace, List.map_cons, ih, List.map_cons, TraceEntry.label]

/-- The labels of the trace of a transaction with an OP: a pipeline's, or none. -/
def traceLabelsOfOp (op : BitVec 4) : List (Option StepLabel) :=
  match op.toNat with
  | 0 => none :: encryptSteps.map fun p => some p.label
  | 1 => none :: decryptSteps.map fun p => some p.label
  | _ => []

/-- From an empty trace, which is where a transaction starts. -/
theorem exec_trace_labels (i : Instr) {s : State} (h : s.trace = []) :
    ∃ t : State, exec i s = .next t ∧ t.trace.map TraceEntry.label = traceLabelsOfOp i.opcode := by
  cases i with
  | encrypt mul a b =>
    obtain ⟨t, hexec, -, htrace, -⟩ := encrypt_completesWith mul a b s
    refine ⟨t, hexec, ?_⟩
    rw [htrace, encryptTrace, List.map_cons, map_label_pipelineTrace]
    rfl
  | decrypt mul a b =>
    obtain ⟨t, hexec, -, htrace, -⟩ := decrypt_completesWith mul a b s
    refine ⟨t, hexec, ?_⟩
    rw [htrace, decryptTrace, List.map_cons, map_label_pipelineTrace]
    rfl
  | expandKey mul a b =>
    obtain ⟨t, hexec, -, htrace, -⟩ := expandKey_completesWith mul a b s
    exact ⟨t, hexec, by rw [htrace, h]; rfl⟩
  | subNibbles | invSubNibbles | shiftRows | mixColumns | addRoundKey | multiply =>
    exact ⟨_, rfl, congrArg (List.map TraceEntry.label) h⟩

theorem traceLabelsOfOp_of_reserved {op : BitVec 4} (h : 9 ≤ op.toNat) : traceLabelsOfOp op = [] := by
  unfold traceLabelsOfOp
  split
  case h_3 => rfl
  all_goals omega

theorem step_trace_labels (w : ReqWord) (s : State) :
    ∃ t : State, step (present w s) = .next t ∧
      t.trace.map TraceEntry.label = traceLabelsOfOp w.op := by
  match hdecode : decode w with
  | .ok i =>
    rw [step_present_of_decode_ok hdecode, ← opcode_of_decode_ok hdecode]
    exact exec_trace_labels i (accept_trace ..)
  | .error (.reservedOp op) =>
    obtain ⟨hreserved, -⟩ := (decode_eq_error_iff w op).mp hdecode
    exact ⟨_, step_present_of_reserved hreserved s, (traceLabelsOfOp_of_reserved hreserved).symm⟩

/-- Settles O46: the labels are `traceLabelsOfOp`, the reads `spacesOfOp`, and LATENCY reads OP. -/
theorem stepsAndReadsDependOnOpOnly : Obligations.StepsAndReadsDependOnOpOnly := by
  refine ⟨fun w w' s s' hop => ?_, fun r r' i i' hop => ?_, fun op mul mul' a a' b b' => ?_⟩
  · obtain ⟨t, hstep, hlabels⟩ := step_trace_labels w s
    obtain ⟨t', hstep', hlabels'⟩ := step_trace_labels w' s'
    exact ⟨t, t', hstep, hstep', by rw [hlabels, hlabels', hop]⟩
  · rw [map_space_transactionReads, map_space_transactionReads, hop]
  · rw [ReqWord.latency, ReqWord.latency, ReqWord.op_ofFields, ReqWord.op_ofFields]

/-! ### Reset (R170 to R172) -/

theorem run_succ_of_step {M : Host.Core} {s s' : M.State} (h : M.step s = .next s') (n : Nat) :
    M.run (n + 1) s = M.run n s' := by
  rw [Host.Core.run, h]

/-- However long the host waits, an idle core keeps its state. -/
theorem run_of_idle {s : State} (h : s.request = none) (n : Nat) :
    Sys2Proof.core.run n s = .next s := by
  induction n with
  | zero => rfl
  | succ n ih =>
    have hstep : Sys2Proof.core.step s = .next s := idleCoreKeepsItsState s h
    exact (run_succ_of_step hstep n).trans ih

/-- Settles O47: reset leaves an idle core with no response pending, which waits as it is and serves what
is sent. -/
theorem resetAbandonsTheTransaction : Obligations.ResetAbandonsTheTransaction := by
  intro s
  refine ⟨assertReset_request s, assertReset_response s, fun s' hdraws => ?_,
    fun n => ⟨_, run_of_idle (assertReset_request s) n, assertReset_response s⟩,
    fun w => stepServesTheRequest w (assertReset s)⟩
  rw [assertReset_regs, assertReset_regs, hdraws]

/-! ### Runs of requests (R66, R174) -/

theorem faultFree_eq_all_result (rs : List Response) :
    FaultFree rs = (rs.map Response.result).all Except.isOk := by
  have hresult (r : Response) : Except.isOk r.result = !r.err := by
    unfold Response.result
    cases r.err <;> rfl
  simp only [FaultFree, List.all_map, Function.comp_def, hresult]

/-- A request has a result exactly when its OP is assigned. -/
theorem isOk_expectedResult (r : Roms) (w : ReqWord) :
    Except.isOk (expectedResult r w) = w.wellFormed := by
  have hwf : w.wellFormed = decide (w.op.toNat ≤ 8) := rfl
  unfold expectedResult
  match h : decode w with
  | .ok i =>
    have hnot : ¬ 9 ≤ w.op.toNat := fun hop => by
      simpa [h] using (decode_eq_error_iff w w.op).mpr ⟨hop, rfl⟩
    exact (hwf.trans (decide_eq_true (by omega))).symm
  | .error (.reservedOp op) =>
    obtain ⟨hreserved, -⟩ := (decode_eq_error_iff w op).mp h
    exact (hwf.trans (decide_eq_false (by omega))).symm

/-- Settles O49: by O48 the results are those of the requests, one by one. -/
theorem runIsFaultFreeIffRequestsLegal : Obligations.RunIsFaultFreeIffRequestsLegal := by
  intro ws s hidle
  obtain ⟨rs, t, hrun, hresults, -⟩ := responsesComeInRequestOrder ws s hidle
  refine ⟨rs, t, hrun, ?_⟩
  simp only [faultFree_eq_all_result, hresults, List.all_map, Function.comp_def, isOk_expectedResult]

/-! ### The round trip through the ports (R138) -/

theorem Response.eq_of_result_eq_ok {r : Response} {d : Data} (h : r.result = .ok d) :
    r = ⟨false, d⟩ := by
  obtain ⟨err, data⟩ := r
  cases err with
  | true => cases h
  | false => exact congrArg _ (Except.ok.inj h)

/-- The host sends an instruction and reads its result. -/
theorem transact_encode (i : Instr) {s : State} (hidle : s.request = none) :
    ∃ t : State, transact (encode i) s = some (⟨false, resultData s.roms i⟩, t) ∧
      t.request = none ∧ t.roms = s.roms := by
  obtain ⟨r, t, hrun, hresult, hidle', hroms⟩ := transact_answers (encode i) hidle
  rw [expectedResult, decode_encode] at hresult
  obtain rfl := Response.eq_of_result_eq_ok hresult
  exact ⟨t, hrun, hidle', hroms⟩

/-- Settles O50: DATA[15:0] is the ciphertext packed, and the second transaction has the tables of the
first. -/
theorem roundTripThroughThePorts : Obligations.RoundTripThroughThePorts := by
  intro s p key h hidle
  obtain ⟨s1, hencrypt, hidle1, hroms1⟩ := transact_encode (.encrypt 0 p key) hidle
  obtain ⟨s2, hdecrypt, -⟩ := transact_encode
    (.decrypt 0 (pack (encrypt s.roms (unpack p) (unpack key))) key) hidle1
  have hsent : (resultData s.roms (.encrypt 0 p key)).extractLsb' 0 16 =
      pack (encrypt s.roms (unpack p) (unpack key)) := by
    obtain ⟨hlow, -⟩ := blockData_placement (encrypt s.roms (unpack p) (unpack key))
    exact hlow
  have hplain : resultData s1.roms
      (.decrypt 0 (pack (encrypt s.roms (unpack p) (unpack key))) key) = p.setWidth 48 := by
    rw [resultData, hroms1, unpack_pack, decrypt_encrypt h, blockData_unpack]
  rw [hplain] at hdecrypt
  refine ⟨_, _, s1, s2, hencrypt, rfl, ?_, rfl⟩
  rw [hsent]
  exact hdecrypt

/-! ### Host programs (R71) -/

theorem runHostProgram_cons {line : AsmForm HostOperand} {rest : HostProgram} {ran : List RunLine}
    {s s1 : State} {form : AsmForm Word} {resp : Response} (hresolve : resolve ran line = some form)
    (hrun : transact (assemble form) s = some (resp, s1)) :
    runHostProgram (line :: rest) ran s = runHostProgram rest (ran ++ [⟨assemble form, resp⟩]) s1 := by
  simp only [runHostProgram, hresolve, hrun]

/-- A line whose names have values is sent and answered, and the rest goes on from there. -/
theorem runHostProgram_step {line : AsmForm HostOperand} (rest : HostProgram) {ran : List RunLine}
    {s : State} {form : AsmForm Word} (hidle : s.request = none)
    (hresolve : resolve ran line = some form) :
    ∃ (resp : Response) (t : State), resp.result = expectedResult s.roms (assemble form) ∧
      t.request = none ∧ t.roms = s.roms ∧
      runHostProgram (line :: rest) ran s =
        runHostProgram rest (ran ++ [⟨assemble form, resp⟩]) t := by
  obtain ⟨resp, t, hrun, hresult, hidle', hroms⟩ := transact_answers (assemble form) hidle
  exact ⟨resp, t, hresult, hidle', hroms, runHostProgram_cons hresolve hrun⟩

/-- A program that runs to its end has a value for every name of its first line. -/
theorem resolve_of_runHostProgram {line : AsmForm HostOperand} {rest : HostProgram}
    {ran : List RunLine} {s : State} {x : List RunLine × State}
    (h : runHostProgram (line :: rest) ran s = some x) : ∃ form, resolve ran line = some form := by
  rw [runHostProgram] at h
  match hresolve : resolve ran line with
  | some form => exact ⟨form, rfl⟩
  | none =>
    rw [hresolve] at h
    cases h

/-- The lines `new` are those of `prog` run after the lines `ran`, each with the names replaced by the
responses before it, and each answered as the tables fix. -/
def RunsInOrder (r : Roms) (prog : HostProgram) (ran new : List RunLine) : Prop :=
  new.length = prog.length ∧
  (∀ (n : Nat) (line : AsmForm HostOperand), prog[n]? = some line →
    ∃ (form : AsmForm Word) (x : RunLine), resolve (ran ++ new.take n) line = some form ∧
      new[n]? = some x ∧ x.request = assemble form) ∧
  (∀ x ∈ new, x.response.result = expectedResult r x.request)

theorem RunsInOrder.nil (r : Roms) (ran : List RunLine) : RunsInOrder r [] ran [] :=
  ⟨rfl, fun _ _ h => by simp at h, fun _ h => by cases h⟩

theorem RunsInOrder.cons {r : Roms} {line : AsmForm HostOperand} {rest : HostProgram}
    {ran new : List RunLine} {form : AsmForm Word} {resp : Response}
    (hresolve : resolve ran line = some form) (hresult : resp.result = expectedResult r (assemble form))
    (h : RunsInOrder r rest (ran ++ [⟨assemble form, resp⟩]) new) :
    RunsInOrder r (line :: rest) ran (⟨assemble form, resp⟩ :: new) := by
  obtain ⟨hlength, hlines, hresults⟩ := h
  refine ⟨by simp [hlength], fun n line' hline => ?_, List.forall_mem_cons.mpr ⟨hresult, hresults⟩⟩
  cases n with
  | zero =>
    obtain rfl : line = line' := by simpa using hline
    exact ⟨form, _, by simpa using hresolve, rfl, rfl⟩
  | succ n =>
    obtain ⟨form', x, hresolve', hx, hrequest⟩ := hlines n line' (by simpa using hline)
    exact ⟨form', x, by simpa using hresolve', by simpa using hx, hrequest⟩

/-- By induction on the program: the lines after the first run from its response. -/
theorem runHostProgram_runsInOrder {prog : HostProgram} {ran out : List RunLine} {s t : State}
    (hidle : s.request = none) (h : runHostProgram prog ran s = some (out, t)) :
    ∃ new : List RunLine, out = ran ++ new ∧ RunsInOrder s.roms prog ran new ∧
      t.request = none ∧ t.roms = s.roms := by
  induction prog generalizing ran s with
  | nil =>
    cases h
    exact ⟨[], (List.append_nil _).symm, RunsInOrder.nil _ _, hidle, rfl⟩
  | cons line rest ih =>
    obtain ⟨form, hresolve⟩ := resolve_of_runHostProgram h
    obtain ⟨resp, s1, hresult, hidle1, hroms1, hrun⟩ := runHostProgram_step rest hidle hresolve
    obtain ⟨new, hout, horder, hidle', hroms⟩ := ih hidle1 (hrun ▸ h)
    rw [hroms1] at horder hroms
    exact ⟨⟨assemble form, resp⟩ :: new, by simp [hout], horder.cons hresolve hresult, hidle', hroms⟩

/-- Settles O51: `RunsInOrder` for a whole run, and the step that it is made of. -/
theorem hostProgramsRunInOrder : Obligations.HostProgramsRunInOrder := by
  refine ⟨fun prog ran out s t hidle hrun => ?_,
    fun _ rest _ _ _ hidle hresolve => runHostProgram_step rest hidle hresolve⟩
  obtain ⟨new, hout, ⟨hlength, hlines, hresults⟩, hidle', hroms⟩ :=
    runHostProgram_runsInOrder hidle hrun
  exact ⟨new, hout, hlength, hlines, hresults, hidle', hroms⟩

end Sys2Proof.Machine
end
